-- ==== Sys2Proof/Word.lean ====
section
/-! DEFINITION. The word types of HPB (spec 00_scope.md R8, R9, R12): all values are unsigned. -/

namespace Sys2Proof

/-- u32: registers, operands and response data (R8, R9). -/
abbrev Word := BitVec 32

/-- u16: modulus and residue of a constraint pair (R8, R55). -/
abbrev Half := BitVec 16

/-- u8: payload and secret elements (R8, R56). -/
abbrev Byte := BitVec 8

/-- One 64-bit command word (R9, R50). -/
abbrev Cmd := BitVec 64

end Sys2Proof
end

