-- ==== Sys2Proof/Syntax.lean ====
section
/-! DEFINITION. The commands of HPB (spec 30_encoding.md R52): one constructor per row of the opcode table. -/

namespace Sys2Proof

/-- A legal command with its operands (R54). No operand names a register or an address (R51); `rd`
carries the selector byte of the word, whose legal values WellFormed checks (R57). -/
inductive Instr where
  | nop
  | rst
  | rd (sel : Byte)
  | prngSeed (seed : Word)
  | prngNext
  | accInit (base : Word)
  | accByte (b : Byte)
  | valLoad (checksum : Word)
  | valLdacc
  | valCheck (modulus residue : Half)
  | decKey (key : Word)
  | decKeyacc
  | decByte (b : Byte)
deriving DecidableEq, Repr

end Sys2Proof
end

