-- ==== Sys2Proof/WellFormed.lean ====
section
/-! DEFINITION. The static check on commands: the one operand whose type admits an illegal value is the
selector of RD (spec 30_encoding.md R57). -/

namespace Sys2Proof

/-- The largest legal selector of RD (R57). -/
def maxSel : Byte := 0x09#8

/-- A command is well formed when a word of the encoding stands for it (R53, R57, R58). -/
def Instr.wf : Instr → Bool
  | .nop => true
  | .rst => true
  | .rd sel => decide (sel ≤ maxSel)
  | .prngSeed _ => true
  | .prngNext => true
  | .accInit _ => true
  | .accByte _ => true
  | .valLoad _ => true
  | .valLdacc => true
  | .valCheck _ _ => true
  | .decKey _ => true
  | .decKeyacc => true
  | .decByte _ => true

end Sys2Proof
end

