-- ==== Sys2Proof/Decode.lean ====
section
/-! DEFINITION. Decoding of command words, total on all 2^64 words and rejecting by name (spec 30_encoding.md
R50 to R61), the encoder from the same tables, the opcode table of R52 and R54, and the byte order of a
serialised word (20_memory.md R43). -/

namespace Sys2Proof

/-- Why a word is illegal (R58). The reason is the model's name only: every illegal word has the one effect
of 60_exceptions.md R123, and a word that breaks several rules gets the first name in the order of R61
(log entry 4). `truncated` is no word at all: fewer than 8 bytes (R45, log entry 4). -/
inductive Reject where
  | rsvNotZero
  | unassignedOpcode
  | selNotZero
  | selOutOfRange
  | argNotZero
  | truncated
deriving DecidableEq, Repr

/-! ## Fields of a command word (R50, R51) -/

/-- `OPC = cmd[7:0]` (R51). -/
def opcOf (w : Cmd) : Byte := w.extractLsb' 0 8

/-- `SEL = cmd[15:8]` (R51). -/
def selOf (w : Cmd) : Byte := w.extractLsb' 8 8

/-- `RSV = cmd[31:16]` (R51). -/
def rsvOf (w : Cmd) : Half := w.extractLsb' 16 16

/-- `ARG = cmd[63:32]` (R51). -/
def argOf (w : Cmd) : Word := w.extractLsb' 32 32

/-- `ARG[7:0]`, the byte operand (R56). -/
def argByte (arg : Word) : Byte := arg.extractLsb' 0 8

/-- `ARG[31:8]`, which the class `byte` leaves unused (R54). -/
def argAboveByte (arg : Word) : BitVec 24 := arg.extractLsb' 8 24

/-- `MOD = ARG[15:0]` (R55). -/
def argModulus (arg : Word) : Half := arg.extractLsb' 0 16

/-- `RES = ARG[31:16]` (R55). -/
def argResidue (arg : Word) : Half := arg.extractLsb' 16 16

/-! ## Operand classes (R53, R54) -/

/-- Class `none`: `SEL` and `ARG` are 0. -/
def takeNone (i : Instr) (w : Cmd) : Except Reject Instr :=
  if selOf w = 0#8 then (if argOf w = 0#32 then .ok i else .error .argNotZero) else .error .selNotZero

/-- Class `sel`: `SEL ≤ 0x09` and `ARG` is 0 (R57). -/
def takeSel (k : Byte → Instr) (w : Cmd) : Except Reject Instr :=
  if selOf w ≤ maxSel then (if argOf w = 0#32 then .ok (k (selOf w)) else .error .argNotZero)
  else .error .selOutOfRange

/-- Class `word`: `SEL` is 0 and every bit of `ARG` is the operand. -/
def takeWord (k : Word → Instr) (w : Cmd) : Except Reject Instr :=
  if selOf w = 0#8 then .ok (k (argOf w)) else .error .selNotZero

/-- Class `byte`: `SEL` and `ARG[31:8]` are 0; `ARG[7:0]` is the operand. -/
def takeByte (k : Byte → Instr) (w : Cmd) : Except Reject Instr :=
  if selOf w = 0#8 then
    (if argAboveByte (argOf w) = 0#24 then .ok (k (argByte (argOf w))) else .error .argNotZero)
  else .error .selNotZero

/-- Class `pair`: `SEL` is 0; `ARG` holds modulus and residue (R55). -/
def takePair (k : Half → Half → Instr) (w : Cmd) : Except Reject Instr :=
  if selOf w = 0#8 then .ok (k (argModulus (argOf w)) (argResidue (argOf w))) else .error .selNotZero

/-- The case of the decode function that `OPC` selects (R52, R61). -/
def decodeOpc (w : Cmd) : Except Reject Instr :=
  if opcOf w = 0x00#8 then takeNone .nop w
  else if opcOf w = 0x01#8 then takeNone .rst w
  else if opcOf w = 0x02#8 then takeSel .rd w
  else if opcOf w = 0x10#8 then takeWord .prngSeed w
  else if opcOf w = 0x11#8 then takeNone .prngNext w
  else if opcOf w = 0x20#8 then takeWord .accInit w
  else if opcOf w = 0x21#8 then takeByte .accByte w
  else if opcOf w = 0x30#8 then takeWord .valLoad w
  else if opcOf w = 0x31#8 then takeNone .valLdacc w
  else if opcOf w = 0x32#8 then takePair .valCheck w
  else if opcOf w = 0x40#8 then takeWord .decKey w
  else if opcOf w = 0x41#8 then takeNone .decKeyacc w
  else if opcOf w = 0x42#8 then takeByte .decByte w
  else .error .unassignedOpcode

/-- The decode function of R61: each word is exactly one legal command or illegal (R59). -/
def decode (w : Cmd) : Except Reject Instr :=
  if rsvOf w ≠ 0#16 then .error .rsvNotZero else decodeOpc w

/-! ## Encoder (R50, R52) -/

/-- `cmd = {ARG, RSV, SEL, OPC}` with `RSV = 0` (R50, R53). -/
def cmdWord (opc sel : Byte) (arg : Word) : Cmd := arg ++ (0#16 ++ (sel ++ opc))

/-- `ARG` of the class `byte`: the byte in bits 7:0, zeros above (R56). -/
def byteArg (b : Byte) : Word := 0#24 ++ b

/-- `ARG = r * 65536 + m` (R55). -/
def pairArg (m r : Half) : Word := r ++ m

/-- The word of a command, each operand placed back by R50 (R61). -/
def encode : Instr → Cmd
  | .nop => cmdWord 0x00#8 0#8 0#32
  | .rst => cmdWord 0x01#8 0#8 0#32
  | .rd sel => cmdWord 0x02#8 sel 0#32
  | .prngSeed v => cmdWord 0x10#8 0#8 v
  | .prngNext => cmdWord 0x11#8 0#8 0#32
  | .accInit v => cmdWord 0x20#8 0#8 v
  | .accByte b => cmdWord 0x21#8 0#8 (byteArg b)
  | .valLoad v => cmdWord 0x30#8 0#8 v
  | .valLdacc => cmdWord 0x31#8 0#8 0#32
  | .valCheck m r => cmdWord 0x32#8 0#8 (pairArg m r)
  | .decKey v => cmdWord 0x40#8 0#8 v
  | .decKeyacc => cmdWord 0x41#8 0#8 0#32
  | .decByte b => cmdWord 0x42#8 0#8 (byteArg b)

/-! ## The opcode table (R52, R54) -/

/-- The mnemonic of a command (R52). -/
def Instr.mnemonic : Instr → String
  | .nop => "NOP"
  | .rst => "RST"
  | .rd _ => "RD"
  | .prngSeed _ => "PRNG.SEED"
  | .prngNext => "PRNG.NEXT"
  | .accInit _ => "ACC.INIT"
  | .accByte _ => "ACC.BYTE"
  | .valLoad _ => "VAL.LOAD"
  | .valLdacc => "VAL.LDACC"
  | .valCheck _ _ => "VAL.CHECK"
  | .decKey _ => "DEC.KEY"
  | .decKeyacc => "DEC.KEYACC"
  | .decByte _ => "DEC.BYTE"

/-- A row of the opcode table: `mask` covers the bits that must equal `bits` (R54's match). -/
structure OpRow where
  name : String
  bits : Cmd
  mask : Cmd
deriving DecidableEq, Repr

/-- The table as R52 and R54 give it. -/
def opTable : List OpRow :=
  [ ⟨"NOP",        0x00#64, 0xFFFFFFFFFFFFFFFF#64⟩,
    ⟨"RST",        0x01#64, 0xFFFFFFFFFFFFFFFF#64⟩,
    ⟨"RD",         0x02#64, 0xFFFFFFFFFFFF00FF#64⟩,
    ⟨"PRNG.SEED",  0x10#64, 0x00000000FFFFFFFF#64⟩,
    ⟨"PRNG.NEXT",  0x11#64, 0xFFFFFFFFFFFFFFFF#64⟩,
    ⟨"ACC.INIT",   0x20#64, 0x00000000FFFFFFFF#64⟩,
    ⟨"ACC.BYTE",   0x21#64, 0xFFFFFF00FFFFFFFF#64⟩,
    ⟨"VAL.LOAD",   0x30#64, 0x00000000FFFFFFFF#64⟩,
    ⟨"VAL.LDACC",  0x31#64, 0xFFFFFFFFFFFFFFFF#64⟩,
    ⟨"VAL.CHECK",  0x32#64, 0x00000000FFFFFFFF#64⟩,
    ⟨"DEC.KEY",    0x40#64, 0x00000000FFFFFFFF#64⟩,
    ⟨"DEC.KEYACC", 0x41#64, 0xFFFFFFFFFFFFFFFF#64⟩,
    ⟨"DEC.BYTE",   0x42#64, 0xFFFFFF00FFFFFFFF#64⟩ ]

/-- A word fits a row: the masked bits agree, and RD's selector is legal (R54, R57). -/
def OpRow.fits (r : OpRow) (w : Cmd) : Bool :=
  decide (w &&& r.mask = r.bits) && (decide (r.name ≠ "RD") || decide (selOf w ≤ maxSel))

/-! ## Serialised words (R43) -/

/-- Byte k of the stream holds `cmd[8k+7:8k]` (R43). -/
def wordBytes (w : Cmd) : List Byte :=
  [ w.extractLsb' 0 8, w.extractLsb' 8 8, w.extractLsb' 16 8, w.extractLsb' 24 8,
    w.extractLsb' 32 8, w.extractLsb' 40 8, w.extractLsb' 48 8, w.extractLsb' 56 8 ]

/-- The word of eight bytes, byte 0 least significant (R43). -/
def joinBytes (b0 b1 b2 b3 b4 b5 b6 b7 : Byte) : Cmd :=
  b7 ++ (b6 ++ (b5 ++ (b4 ++ (b3 ++ (b2 ++ (b1 ++ b0))))))

/-- Decode the first command of a byte stream; the rest of the stream is returned. Every command is 8 bytes
long (R60). -/
def decodeBytes : List Byte → Except Reject (Instr × List Byte)
  | b0 :: b1 :: b2 :: b3 :: b4 :: b5 :: b6 :: b7 :: rest =>
    match decode (joinBytes b0 b1 b2 b3 b4 b5 b6 b7) with
    | .ok i => .ok (i, rest)
    | .error r => .error r
  | _ => .error .truncated

/-- The command word the host asks about: the low `nbits` bits of `w`, zeros above. -/
def tableWord (nbits w : Nat) : Cmd := BitVec.ofNat 64 (w % 2 ^ nbits)

/-- What the decoder reads from the word of an opcode-table row, laid out as bytes (R43). -/
def decodeTableWord (nbits w : Nat) : Option Instr :=
  match decodeBytes (wordBytes (tableWord nbits w)) with
  | .ok (i, _) => some i
  | .error _ => none

end Sys2Proof
end

