-- ==== Sys2Proof/Config.lean ====
section
/-! DEFINITION. What an implementation of HPB fixes (R10) and the values the spec leaves free (R142, U5). -/

namespace Sys2Proof.Config

/-- The two parameters the source leaves open (R10, D25, D26): `nInst` is `N_INST`, the number of
instances of a platform, and `lat` is `LAT`, the clock edges from acceptance to response. -/
structure Params where
  nInst : Nat
  lat   : Nat
deriving DecidableEq, Repr

/-- Both parameters are at least 1 (R10). -/
def Params.wf (p : Params) : Bool := decide (1 ≤ p.nInst) && decide (1 ≤ p.lat)

/-- FREE VALUES: what the 32-bit registers hold from power-up to the first reset (R142, U5: any value).
The argument tells the registers apart. Log entry 3. -/
opaque powerUpWord : Nat → Word

/-- FREE VALUE: POUT before the first reset (R142, U5). Log entry 3. -/
opaque powerUpPout : BitVec 15

/-- FREE VALUE: LANE before the first reset (R142, U5). Log entry 3. -/
opaque powerUpLane : BitVec 2

/-- FREE VALUE: DOUT before the first reset (R142, U5). Log entry 3. -/
opaque powerUpDout : Byte

/-- FREE VALUES: the one-bit registers before the first reset: VOK (0), ERR_ILL (1) and ERR_MOD0 (2)
(R142, U5). Log entry 3. -/
opaque powerUpBit : Nat → Bool

end Sys2Proof.Config
end

