-- ==== Sys2Proof/Machine/State.lean ====
section
/-! DEFINITION. The state of one HPB instance (spec 10_state.md R22 to R37) with what the host has still to present
and has received (70_reset_and_hazards.md R152), the state after reset (R141), and the reasons a step can stop. -/

namespace Sys2Proof.Machine

/-- The eleven registers of R22; "nothing else is state". -/
structure Regs where
  /-- STATE: the generator state (R23). -/
  state  : Word
  /-- POUT: the last draw, bits 14:0 (R24). -/
  pout   : BitVec 15
  /-- DCNT: the number of draws since the last seed or reset (R25). -/
  dcnt   : Word
  /-- ACC: the running weighted checksum (R26). -/
  acc    : Word
  /-- AIDX: the index the next byte of the checksum gets (R27). -/
  aidx   : Word
  /-- KEY: the decode key (R30). -/
  key    : Word
  /-- LANE: the index of the next decoded byte, mod 4 (R31). -/
  lane   : BitVec 2
  /-- DOUT: the last decoded byte (R32). -/
  dout   : Byte
  /-- VOK: the running result of the validator (R29). -/
  vok    : Bool
  /-- STATUS: bit 0 ERR_ILL, bit 1 ERR_MOD0, bits 31:2 hardwired 0 (R33; log entry 2). -/
  status : Word
  /-- VX: the checksum under test, hidden (R28). -/
  vx     : Word
deriving DecidableEq, Repr

/-- The response of a command: 32-bit data and the error flag (R14, R44). -/
structure Response where
  data : Word
  err  : Bool
deriving DecidableEq, Repr

/-- What the host does to one instance, one input per step (log entry 1). -/
inductive HostInput where
  /-- The host presents a command word (R146). -/
  | command (w : Cmd)
  /-- The reset pin is asserted (R140). `inFlight` is the command that was in flight, if any: its response
  is never delivered and its effects are overwritten (R142). -/
  | resetPin (inFlight : Option Cmd)
deriving DecidableEq, Repr

/-- One instance and the host's side of its command port. `inbox` and `rsps` are the model's own fields
(R21, R152; log entry 1): the inputs not yet accepted, oldest first, and the responses delivered, oldest first. -/
structure State where
  regs  : Regs
  inbox : List HostInput
  rsps  : List Response
deriving DecidableEq, Repr

/-- The reasons the machine stops with a fault: NONE. Every legal or illegal word completes with a response
("No behaviour of HPB is stuck", 93_implementation_defined.md), and an error is a response, not a stop
(60_exceptions.md R122, R128). Safe: there is nothing to raise. -/
inductive Fault where
deriving DecidableEq, Repr

/-- The reasons a step gives no meaning. -/
inductive Refusal where
  /-- An instruction without a meaning yet, raised by exec's arms only. No arm raises it now. Safe: a
  refused run proves nothing about the hardware. -/
  | notModelled (mnemonic : String)
deriving DecidableEq, Repr

/-- Every register at its reset value (R141). -/
def Regs.reset : Regs where
  state  := 0x00000000#32
  pout   := 0x0000#15
  dcnt   := 0x00000000#32
  acc    := 0x00000000#32
  aidx   := 0x00000000#32
  key    := 0x00000000#32
  lane   := 0#2
  dout   := 0x00#8
  vok    := false
  status := 0x00000000#32
  vx     := 0x00000000#32

/-- The machine right after reset (R141), with nothing presented and nothing answered. -/
def State.reset : State where
  regs  := Regs.reset
  inbox := []
  rsps  := []

end Sys2Proof.Machine
end

