-- ==== Sys2Proof/Machine/Flags.lean ====
section
/-! DEFINITION. The three flags of HPB (spec 10_state.md R34): VOK and the STATUS bits ERR_ILL and ERR_MOD0. -/

namespace Sys2Proof.Machine

/-- The two live bits of STATUS (R33). -/
inductive StatusBit where
  | errIll
  | errMod0
deriving DecidableEq, Repr

/-- The position of a live bit (R33). -/
def StatusBit.pos : StatusBit → Nat
  | .errIll => 0
  | .errMod0 => 1

/-- The value of a live bit of a STATUS word. -/
def statusBit (b : StatusBit) (status : Word) : Bool := status.getLsbD b.pos

/-- STATUS with one bit set and the rest as before: the bits are sticky (R129). -/
def setStatusBit (b : StatusBit) (status : Word) : Word := status ||| (1#32 <<< b.pos)

/-- The reserved bits 31:2 of STATUS are 0 (R33). -/
def statusReservedZero (status : Word) : Bool := decide (status.extractLsb' 2 30 = 0#30)

/-- What a read of STATUS gives: `zext_32({ERR_MOD0, ERR_ILL})` (R112); bits 31:2 read 0 (R33). -/
def statusRead (status : Word) : Word :=
  (BitVec.ofBool (statusBit .errMod0 status) ++ BitVec.ofBool (statusBit .errIll status)).setWidth 32

/-- A constraint pair is satisfied: `VX umod zext_32(MOD) = zext_32(RES)` (R92). Applied with `MOD ≠ 0`
only; R93 handles `MOD = 0` before the remainder is taken (R12). -/
def pairOk (vx : Word) (modulus residue : Half) : Bool :=
  decide (vx % modulus.setWidth 32 = residue.setWidth 32)

/-- `VOK and ok`: VAL.CHECK keeps or clears the flag, never sets it (R29, R92). -/
def vokAfter (vok : Bool) (vx : Word) (modulus residue : Half) : Bool :=
  vok && pairOk vx modulus residue

end Sys2Proof.Machine
end

