-- ==== Sys2Proof/Machine/Operands.lean ====
section
/-! DEFINITION. The operand forms of HPB's commands (spec 30_encoding.md R54 to R57): the register selector of RD and
the zero extension of every narrower value (00_scope.md R12). -/

namespace Sys2Proof.Machine

/-- `zext_32` (R12): HPB has no sign extension. -/
def zext {n : Nat} (v : BitVec n) : Word := v.setWidth 32

/-- The registers RD can select (R22): all but VX (R28). -/
inductive RdReg where
  | state | pout | dcnt | acc | aidx | key | lane | dout | vok | status
deriving DecidableEq, Repr

/-- The register of a selector; 0x0A to 0xFF select nothing (R57). -/
def regOfSel (sel : Byte) : Option RdReg :=
  if sel = 0x00#8 then some .state
  else if sel = 0x01#8 then some .pout
  else if sel = 0x02#8 then some .dcnt
  else if sel = 0x03#8 then some .acc
  else if sel = 0x04#8 then some .aidx
  else if sel = 0x05#8 then some .key
  else if sel = 0x06#8 then some .lane
  else if sel = 0x07#8 then some .dout
  else if sel = 0x08#8 then some .vok
  else if sel = 0x09#8 then some .status
  else none

/-- The value RD returns for a register, zero-extended (R112). -/
def readReg (r : RdReg) (g : Regs) : Word :=
  match r with
  | .state => g.state
  | .pout => zext g.pout
  | .dcnt => g.dcnt
  | .acc => g.acc
  | .aidx => g.aidx
  | .key => g.key
  | .lane => zext g.lane
  | .dout => zext g.dout
  | .vok => zext (BitVec.ofBool g.vok)
  | .status => statusRead g.status

end Sys2Proof.Machine
end

