-- ==== Sys2Proof/Machine/Ops.lean ====
section
/-! DEFINITION. The named operations the commands share: writing the registers of one unit, answering, raising an
error, resetting, the arithmetic of the generator, the checksum and the decoder, and the host's side of the
command port. -/

namespace Sys2Proof.Machine

/-! ## Writing the registers of one unit

All writes of a command take effect together (spec 00_scope.md R13). -/

/-- Write the PRNG unit: STATE, POUT and DCNT. -/
def State.setPrng (s : State) (state : Word) (pout : BitVec 15) (dcnt : Word) : State :=
  { s with regs := { s.regs with state := state, pout := pout, dcnt := dcnt } }

/-- Write the checksum unit: ACC and AIDX. -/
def State.setAcc (s : State) (acc aidx : Word) : State :=
  { s with regs := { s.regs with acc := acc, aidx := aidx } }

/-- Load the validator: VX and VOK. -/
def State.setVal (s : State) (vx : Word) (vok : Bool) : State :=
  { s with regs := { s.regs with vx := vx, vok := vok } }

/-- Write VOK alone. -/
def State.setVok (s : State) (vok : Bool) : State :=
  { s with regs := { s.regs with vok := vok } }

/-- Load the decoder: KEY and LANE; DOUT stays (R32). -/
def State.setKey (s : State) (key : Word) (lane : BitVec 2) : State :=
  { s with regs := { s.regs with key := key, lane := lane } }

/-- One decoded byte: DOUT and LANE; KEY stays. -/
def State.setDout (s : State) (dout : Byte) (lane : BitVec 2) : State :=
  { s with regs := { s.regs with dout := dout, lane := lane } }

/-- Set one sticky bit of STATUS (R33, R129). -/
def State.setErr (s : State) (b : StatusBit) : State :=
  { s with regs := { s.regs with status := setStatusBit b s.regs.status } }

/-- Every register at its reset value, in one step (70_reset_and_hazards.md R140). -/
def State.resetRegs (s : State) : State := { s with regs := Regs.reset }

/-! ## Answering and raising an error -/

/-- `respond(data, err)` (R14): the response is delivered to the host. -/
def State.respond (s : State) (data : Word) (err : Bool) : State :=
  { s with rsps := s.rsps ++ [⟨data, err⟩] }

/-- The two error causes (60_exceptions.md R120). -/
inductive ErrorCause where
  | illegal
  | modZero
deriving DecidableEq, Repr

/-- The error code of a cause (R120). -/
def ErrorCause.code : ErrorCause → Word
  | .illegal => 1#32
  | .modZero => 2#32

/-- The STATUS bit of a cause (R120). -/
def ErrorCause.bit : ErrorCause → StatusBit
  | .illegal => .errIll
  | .modZero => .errMod0

/-- Raising an error, HPB's only form of exception: the STATUS bit of the cause is set and the response is
`(code, true)` (R120, R122). Nothing is saved, no mode changes and control goes nowhere (R128); there is
no return from it (R129), the next command is taken as usual. -/
def State.raiseError (s : State) (c : ErrorCause) : State :=
  (s.setErr c.bit).respond c.code true

/-! ## The generator (40_prng.md R70, R72) -/

/-- The multiplier `A` (R70). -/
def prngA : Word := 0x41C64E6D#32

/-- The increment `C` (R70). -/
def prngC : Word := 0x3039#32

/-- `f(x) = x * A + C mod 2^32` (R72, R73). The constants stand on the left, where the kernel does not count
through them; sum and product mod 2^32 commute. -/
def prngUpdate (x : Word) : Word := prngC + prngA * x

/-- The draw of an updated state, `s[30:16]` (R72). -/
def drawOf (x : Word) : BitVec 15 := x.extractLsb' 16 15

/-! ## The checksum and the decoder -/

/-- `ACC + zext_32(B) * AIDX mod 2^32` (41_checksum.md R81). -/
def accTerm (acc aidx : Word) (b : Byte) : Word := acc + zext b * aidx

/-- `(KEY >> (LANE * 8)) & 0xFF` (43_decoder.md R102): lane 0 is the least significant byte (20_memory.md R42). -/
def keyByte (key : Word) (lane : BitVec 2) : Byte := (key >>> (lane.toNat * 8)).setWidth 8

/-! ## The host's side of the command port -/

/-- The host presents a command word ahead of everything it has still to present. -/
def State.present (s : State) (w : Cmd) : State := { s with inbox := .command w :: s.inbox }

/-- The next input the instance takes, and the state without it (R146: one at a time, in order). -/
def State.takeInput (s : State) : Option (HostInput × State) :=
  match s.inbox with
  | [] => none
  | h :: rest => some (h, { s with inbox := rest })

/-- The reset pin: every register is reset and nothing is answered. A command in flight loses its response,
and its effects are overwritten (R140, R142). -/
def State.pinReset (s : State) (_inFlight : Option Cmd) : State := s.resetRegs

/-! ## Before the first reset -/

/-- The registers between power-up and the first reset: any value (R142, U5), so each field is a free value
of Config. The reserved bits of STATUS are hardwired and so 0 then too (R33). Log entry 3. -/
def Regs.powerUp : Regs where
  state  := Config.powerUpWord 0
  pout   := Config.powerUpPout
  dcnt   := Config.powerUpWord 1
  acc    := Config.powerUpWord 2
  aidx   := Config.powerUpWord 3
  key    := Config.powerUpWord 4
  lane   := Config.powerUpLane
  dout   := Config.powerUpDout
  vok    := Config.powerUpBit 0
  status := (BitVec.ofBool (Config.powerUpBit 2) ++ BitVec.ofBool (Config.powerUpBit 1)).setWidth 32
  vx     := Config.powerUpWord 5

/-- A machine that has not been reset since power-up (R142). -/
def State.powerUp : State where
  regs  := Regs.powerUp
  inbox := []
  rsps  := []

end Sys2Proof.Machine
end

