-- ==== Sys2Proof/Machine/Checksum.lean ====
section
/-! DEFINITION. The weighted checksum accumulator's commands (spec 41_checksum.md R80, R81). -/

namespace Sys2Proof.Machine

/-- ACC.INIT (R80): start a checksum with a base. -/
def execAccInit (base : Word) (s : State) : Host.Outcome State Fault Refusal :=
  .next ((s.setAcc base 0#32).respond 0#32 false)

/-- ACC.BYTE (R81): add the byte weighted by AIDX; responds the new ACC. -/
def execAccByte (b : Byte) (s : State) : Host.Outcome State Fault Refusal :=
  let a := accTerm s.regs.acc s.regs.aidx b
  .next ((s.setAcc a (s.regs.aidx + 1#32)).respond a false)

end Sys2Proof.Machine
end

