-- ==== Sys2Proof/Machine/Control.lean ====
section
/-! DEFINITION. The control commands NOP, RST and RD (spec 44_control.md R110 to R112). -/

namespace Sys2Proof.Machine

/-- NOP (R110): no state changes; responds (0, false). -/
def execNop (s : State) : Host.Outcome State Fault Refusal :=
  .next (s.respond 0#32 false)

/-- RST (R111): every register takes its reset value; responds (0, false). -/
def execRst (s : State) : Host.Outcome State Fault Refusal :=
  .next (s.resetRegs.respond 0#32 false)

/-- RD (R112): responds the selected register, zero-extended. A selector above 0x09 is illegal (error
code 1, R57); decode yields none, so this form is reached by a term only (log entry 5). -/
def execRd (sel : Byte) (s : State) : Host.Outcome State Fault Refusal :=
  match regOfSel sel with
  | some r => .next (s.respond (readReg r s.regs) false)
  | none => .next (s.raiseError .illegal)

end Sys2Proof.Machine
end

