-- ==== Sys2Proof/Machine/Decoder.lean ====
section
/-! DEFINITION. The rolling-key XOR decoder's commands (spec 43_decoder.md R100 to R102). -/

namespace Sys2Proof.Machine

/-- DEC.KEY (R100): load a key from the host and restart the byte index. -/
def execDecKey (key : Word) (s : State) : Host.Outcome State Fault Refusal :=
  .next ((s.setKey key 0#2).respond 0#32 false)

/-- DEC.KEYACC (R101): load the key from ACC and restart the byte index. VOK is not looked at. -/
def execDecKeyacc (s : State) : Host.Outcome State Fault Refusal :=
  .next ((s.setKey s.regs.acc 0#2).respond 0#32 false)

/-- DEC.BYTE (R102): decode one byte with the key byte of the lane; responds the byte. -/
def execDecByte (b : Byte) (s : State) : Host.Outcome State Fault Refusal :=
  let d := b ^^^ keyByte s.regs.key s.regs.lane
  .next ((s.setDout d (s.regs.lane + 1#2)).respond (zext d) false)

end Sys2Proof.Machine
end

