-- ==== Sys2Proof/Machine/Prng.lean ====
section
/-! DEFINITION. The PRNG unit's commands (spec 40_prng.md R70 to R72). -/

namespace Sys2Proof.Machine

/-- PRNG.SEED (R71): load a seed, clear POUT and DCNT. -/
def execPrngSeed (seed : Word) (s : State) : Host.Outcome State Fault Refusal :=
  .next ((s.setPrng seed 0#15 0#32).respond 0#32 false)

/-- PRNG.NEXT (R72): update STATE, then take the draw from the updated state. -/
def execPrngNext (s : State) : Host.Outcome State Fault Refusal :=
  let x := prngUpdate s.regs.state
  let d := drawOf x
  .next ((s.setPrng x d (s.regs.dcnt + 1#32)).respond (zext d) false)

end Sys2Proof.Machine
end

