-- ==== Sys2Proof/Machine/Validator.lean ====
section
/-! DEFINITION. The constraint validator's commands (spec 42_validator.md R90 to R93). -/

namespace Sys2Proof.Machine

/-- VAL.LOAD (R90): load a checksum from the host and start a new constraint set. -/
def execValLoad (checksum : Word) (s : State) : Host.Outcome State Fault Refusal :=
  .next ((s.setVal checksum true).respond 0#32 false)

/-- VAL.LDACC (R91): load the checksum from ACC and start a new constraint set. -/
def execValLdacc (s : State) : Host.Outcome State Fault Refusal :=
  .next ((s.setVal s.regs.acc true).respond 0#32 false)

/-- VAL.CHECK (R92): AND one pair into VOK; responds the new VOK. A zero modulus clears VOK and raises
E_MOD_ZERO (R93, 60_exceptions.md R124). -/
def execValCheck (modulus residue : Half) (s : State) : Host.Outcome State Fault Refusal :=
  if modulus = 0#16 then
    .next ((s.setVok false).raiseError .modZero)
  else
    let ok := vokAfter s.regs.vok s.regs.vx modulus residue
    .next ((s.setVok ok).respond (zext (BitVec.ofBool ok)) false)

end Sys2Proof.Machine
end

