-- ==== Sys2Proof/Machine/Dispatch.lean ====
section
/-! DEFINITION. exec: one arm per command of the opcode table (spec 30_encoding.md R52). -/

namespace Sys2Proof.Machine

def exec (i : Instr) (s : State) : Host.Outcome State Fault Refusal :=
  match i with
  -- control (44_control.md)
  | .nop => Sys2Proof.Machine.execNop s
  | .rst => Sys2Proof.Machine.execRst s
  | .rd sel => Sys2Proof.Machine.execRd sel s
  -- PRNG unit (40_prng.md)
  | .prngSeed seed => Sys2Proof.Machine.execPrngSeed seed s
  | .prngNext => Sys2Proof.Machine.execPrngNext s
  -- weighted checksum accumulator (41_checksum.md)
  | .accInit base => Sys2Proof.Machine.execAccInit base s
  | .accByte b => Sys2Proof.Machine.execAccByte b s
  -- constraint validator (42_validator.md)
  | .valLoad checksum => Sys2Proof.Machine.execValLoad checksum s
  | .valLdacc => Sys2Proof.Machine.execValLdacc s
  | .valCheck modulus residue => Sys2Proof.Machine.execValCheck modulus residue s
  -- XOR decoder (43_decoder.md)
  | .decKey key => Sys2Proof.Machine.execDecKey key s
  | .decKeyacc => Sys2Proof.Machine.execDecKeyacc s
  | .decByte b => Sys2Proof.Machine.execDecByte b s

end Sys2Proof.Machine
end

