-- ==== Sys2Proof/Machine/Step.lean ====
section
/-! DEFINITION. One step of an instance: it takes the host's next input (spec 70_reset_and_hazards.md R146, R152). -/

namespace Sys2Proof.Machine

/-- A command word is executed: a legal word runs its command, an illegal word raises E_ILLEGAL and does
nothing else (30_encoding.md R58, R61; 60_exceptions.md R123). -/
def runWord (w : Cmd) (s : State) : Host.Outcome State Fault Refusal :=
  match decode w with
  | .ok i => exec i s
  | .error _ => .next (s.raiseError .illegal)

/-- One step: a command word, a reset of the pin, or, with nothing presented, holding the state while idle
(60_exceptions.md R136). -/
def step (s : State) : Host.Outcome State Fault Refusal :=
  match s.takeInput with
  | none => .next s
  | some (.command w, t) => runWord w t
  | some (.resetPin inFlight, t) => .next (t.pinReset inFlight)

/-- `s` with the table word presented by the host as the next input, so that the very next step runs it.
This stands for the host's issuing the command (log entry 1). -/
def State.withFetchWord (s : State) (nbits w : Nat) : State := s.present (tableWord nbits w)

end Sys2Proof.Machine
end

