-- ==== Sys2Proof/Machine/HostFlow.lean ====
section
/-! DEFINITION. The host's side: issuing commands one at a time (spec 70_reset_and_hazards.md R146, R152), the
pseudo-instructions (30_encoding.md R63), and the two flows the spec writes as host duties (70_reset_and_hazards.md
R144, R145). Host software is no part of the block (00_scope.md R6); it stands here so that claims can be made about
the command sequences. Log entry 9. -/

namespace Sys2Proof.Machine

/-- Go on with a result, unless the machine has stopped. -/
def andThen {α β : Type} (x : Host.Outcome α Fault Refusal) (f : α → Host.Outcome β Fault Refusal) :
    Host.Outcome β Fault Refusal :=
  match x with
  | .next a => f a
  | .fault r => .fault r
  | .refused r => .refused r

/-- Issue one command word and let it complete (R146). -/
def issueWord (w : Cmd) (s : State) : Host.Outcome State Fault Refusal := step (s.present w)

/-- Issue one command by its word. -/
def issue (i : Instr) (s : State) : Host.Outcome State Fault Refusal := issueWord (encode i) s

/-- Issue a command list in order (R152). -/
def issueAll : List Instr → State → Host.Outcome State Fault Refusal
  | [], s => .next s
  | i :: is, s => andThen (issue i s) (issueAll is)

/-- The data of the response delivered last; 0 before any response. -/
def lastData (s : State) : Word :=
  match s.rsps.getLast? with
  | some r => r.data
  | none => 0#32

/-- The low byte of response data. -/
def lowByte (w : Word) : Byte := w.setWidth 8

/-! ## Pseudo-instructions (R63) -/

/-- The pseudo-instructions; none has an encoding of its own (R63). -/
inductive Pseudo where
  | accStr (base : Word) (bytes : List Byte)
  | valSet (pairs : List (Half × Half))
  | decStr (key : Word) (bytes : List Byte)
  | prngSkip (n : Nat)
deriving DecidableEq, Repr

/-- The commands a pseudo-instruction stands for, in order (R63). -/
def Pseudo.expand : Pseudo → List Instr
  | .accStr base bytes => .accInit base :: bytes.map .accByte
  | .valSet pairs => pairs.map fun p => .valCheck p.1 p.2
  | .decStr key bytes => .decKey key :: bytes.map .decByte
  | .prngSkip n => List.replicate n .prngNext

/-! ## The unlock flow (R144) -/

/-- The base of the secret's checksum in the unlock flow (R80, R144). -/
def secretBase : Word := 0x7FFFFFFF#32

/-- Lines 1 to 4 of R144: checksum the secret, test the constraint set, read the verdict. -/
def unlockFront (secret : List Byte) (pairs : List (Half × Half)) : List Instr :=
  Pseudo.expand (.accStr secretBase secret) ++ .valLdacc :: (Pseudo.expand (.valSet pairs) ++ [.rd 0x08#8])

/-- The decode loop of R144: each decoded byte is fed to the accumulator and kept. -/
def decodeAndSum : List Byte → State → Host.Outcome (List Byte × State) Fault Refusal
  | [], s => .next ([], s)
  | e :: es, s =>
    andThen (issue (.decByte e) s) fun s1 =>
    andThen (issue (.accByte (lowByte (lastData s1))) s1) fun s2 =>
    andThen (decodeAndSum es s2) fun r => .next (lowByte (lastData s1) :: r.1, r.2)

/-- How the unlock flow ends (R121, R144). -/
inductive Verdict where
  | invalidKey
  | corruptedPayload
  | released (bytes : List Byte)
deriving DecidableEq, Repr

/-- The unlock flow of R144 as the host runs it: no DEC.BYTE on a rejected checksum, nothing released when the
decoded payload's checksum is not the expected one. -/
def unlock (secret : List Byte) (pairs : List (Half × Half)) (encoded : List Byte) (expected : Word)
    (s : State) : Host.Outcome (Verdict × State) Fault Refusal :=
  andThen (issueAll (unlockFront secret pairs) s) fun s1 =>
  if lastData s1 = 0#32 then .next (.invalidKey, s1)
  else
    andThen (issueAll [.decKeyacc, .accInit 0#32] s1) fun s2 =>
    andThen (decodeAndSum encoded s2) fun r =>
    andThen (issue (.rd 0x03#8) r.2) fun s4 =>
    if lastData s4 = expected then .next (.released r.1, s4) else .next (.corruptedPayload, s4)

/-! ## The seed-recovery flow (R145) -/

/-- A fingerprint: 1-based draw positions with the expected low bytes (R15, R145; U11). -/
abbrev Fingerprint := List (Nat × Byte)

/-- The largest position, up to which a trial draws (R145). -/
def lastPosition (fp : Fingerprint) : Nat := (fp.map Prod.fst).foldr max 0

/-- Draw number `k` with response `d` agrees with the fingerprint (R75, R145). -/
def agreesAt (fp : Fingerprint) (k : Nat) (d : Word) : Bool :=
  fp.all fun p => decide (p.1 ≠ k) || decide (lowByte d = p.2)

/-- Make `n` draws from draw number `k` on, stopping at the first mismatch (R145). -/
def drawsAgree (fp : Fingerprint) (k : Nat) : Nat → State → Host.Outcome (Bool × State) Fault Refusal
  | 0, s => .next (true, s)
  | n + 1, s =>
    andThen (issue .prngNext s) fun t =>
    if agreesAt fp k (lastData t) then drawsAgree fp (k + 1) n t else .next (false, t)

/-- One trial: seed the generator and compare its draws with the fingerprint (R145). -/
def seedTrial (fp : Fingerprint) (seed : Word) (s : State) : Host.Outcome (Bool × State) Fault Refusal :=
  andThen (issue (.prngSeed seed) s) (drawsAgree fp 1 (lastPosition fp))

/-- The optional cross-check of a found seed against a constraint set (R145). -/
def crossCheck (pairs : List (Half × Half)) (seed : Word) (s : State) :
    Host.Outcome (Bool × State) Fault Refusal :=
  andThen (issueAll (.valLoad seed :: (Pseudo.expand (.valSet pairs) ++ [.rd 0x08#8])) s) fun t =>
  .next (decide (lastData t ≠ 0#32), t)

/-- The trials of a list of seeds in order; all matches are enumerated (R145, 90_conflicts.md C3). -/
def seedSearch (fp : Fingerprint) : List Word → State → Host.Outcome (List Word × State) Fault Refusal
  | [], s => .next ([], s)
  | x :: xs, s =>
    andThen (seedTrial fp x s) fun r =>
    andThen (seedSearch fp xs r.2) fun q => .next (if r.1 then x :: q.1 else q.1, q.2)

end Sys2Proof.Machine
end

