-- ==== Sys2Proof/Machine/Assembler.lean ====
section
/-! DEFINITION. The assembler notation of the spec (30_encoding.md R62) with the pseudo-instructions (R63): one
command per line, `;` starts a comment. It is notation only (D27); the machine never sees it. What R62's examples
leave open is in log entry 8. -/

namespace Sys2Proof.Machine.Assembler

/-- The tokens of a line. A character in quotes is its ASCII code (R62). -/
inductive Tok where
  | word (cs : List Char)
  | num (n : Nat)
  | str (bytes : List Byte)
  | comma
  | lpar
  | rpar
deriving DecidableEq, Repr

/-- The value of a digit in base 10 or 16. -/
def digitVal (base : Nat) (c : Char) : Option Nat :=
  let n := c.toNat
  let v :=
    if 48 ≤ n ∧ n ≤ 57 then n - 48
    else if 97 ≤ n ∧ n ≤ 102 then n - 87
    else if 65 ≤ n ∧ n ≤ 70 then n - 55
    else base
  if v < base then some v else none

/-- The number of a list of digits, most significant first. -/
def digits (base : Nat) : Nat → List Char → Option Nat
  | acc, [] => some acc
  | acc, c :: cs =>
    match digitVal base c with
    | some v => digits base (acc * base + v) cs
    | none => none

/-- A literal, decimal or `0x` hex (R62). -/
def literal : List Char → Option Nat
  | [] => none
  | ['0', 'x'] => none
  | '0' :: 'x' :: cs => digits 16 0 cs
  | cs => digits 10 0 cs

/-- What the lexer is inside of. -/
inductive Mode where
  | plain (acc : List Char)
  | text (acc : List Byte)
deriving DecidableEq, Repr

/-- The word read so far, as a token. -/
def flush (acc : List Char) : List Tok := if acc = [] then [] else [.word acc.reverse]

/-- The ASCII code of a character, if it has one. -/
def ascii (c : Char) : Option Byte := if c.toNat < 128 then some (BitVec.ofNat 8 c.toNat) else none

/-- The double quote, which delimits strings. -/
def dquote : Char := Char.ofNat 34

/-- The single quote, which delimits characters. -/
def squote : Char := Char.ofNat 39

/-- The byte of two hexadecimal digits, as in `\xff` (95_test_vectors.md V-ACC-2). -/
def hexByte (h l : Char) : Option Byte :=
  (digitVal 16 h).bind fun x => (digitVal 16 l).map fun y => BitVec.ofNat 8 (16 * x + y)

/-- Split a line into tokens, up to the comment. In a string, a backslash and an x not followed by two hexadecimal
digits refuse the line, whatever follows (DESIGN CHOICE, log entry 8: the spec is silent). -/
def lex : Mode → List Char → Option (List Tok)
  | .plain acc, [] => some (flush acc)
  | .text _, [] => none
  | .text acc, '\\' :: 'x' :: h :: l :: cs =>
    (hexByte h l).bind fun b => lex (.text (b :: acc)) cs
  | .text _, '\\' :: 'x' :: _ => none
  | .text acc, c :: cs =>
    if c = dquote then (lex (.plain []) cs).map (Tok.str acc.reverse :: ·)
    else (ascii c).bind fun b => lex (.text (b :: acc)) cs
  | .plain acc, c :: x :: q :: cs =>
    if c = squote then
      (if q = squote then
        (ascii x).bind fun b => (lex (.plain []) cs).map (flush acc ++ Tok.num b.toNat :: ·)
      else none)
    else if c = ';' then some (flush acc)
    else if c = ' ' ∨ c = '\t' then (lex (.plain []) (x :: q :: cs)).map (flush acc ++ ·)
    else if c = ',' then (lex (.plain []) (x :: q :: cs)).map (flush acc ++ Tok.comma :: ·)
    else if c = '(' then (lex (.plain []) (x :: q :: cs)).map (flush acc ++ Tok.lpar :: ·)
    else if c = ')' then (lex (.plain []) (x :: q :: cs)).map (flush acc ++ Tok.rpar :: ·)
    else if c = dquote then (lex (.text []) (x :: q :: cs)).map (flush acc ++ ·)
    else lex (.plain (c :: acc)) (x :: q :: cs)
  | .plain acc, c :: cs =>
    if c = ';' then some (flush acc)
    else if c = ' ' ∨ c = '\t' then (lex (.plain []) cs).map (flush acc ++ ·)
    else if c = ',' then (lex (.plain []) cs).map (flush acc ++ Tok.comma :: ·)
    else if c = '(' then (lex (.plain []) cs).map (flush acc ++ Tok.lpar :: ·)
    else if c = ')' then (lex (.plain []) cs).map (flush acc ++ Tok.rpar :: ·)
    else if c = dquote then (lex (.text []) cs).map (flush acc ++ ·)
    else if c = squote then none
    else lex (.plain (c :: acc)) cs

/-- A number token or a literal below `2^n`, as an operand of width `n`. R62 gives a character in quotes to the class
`byte` only; it is taken at every width, as its ASCII code (DESIGN CHOICE, log entry 8). -/
def operand (n : Nat) : Tok → Option (BitVec n)
  | .num v => if v < 2 ^ n then some (BitVec.ofNat n v) else none
  | .word cs => (literal cs).bind fun v => if v < 2 ^ n then some (BitVec.ofNat n v) else none
  | .str _ => none
  | .comma => none
  | .lpar => none
  | .rpar => none

/-- A count, for PRNG.SKIP. -/
def count : Tok → Option Nat
  | .word cs => literal cs
  | .num _ => none
  | .str _ => none
  | .comma => none
  | .lpar => none
  | .rpar => none

/-- The selector of a register name; VX has none (R22, R62). -/
def selOfName (cs : List Char) : Option Byte :=
  if cs = "STATE".toList then some 0x00
  else if cs = "POUT".toList then some 0x01
  else if cs = "DCNT".toList then some 0x02
  else if cs = "ACC".toList then some 0x03
  else if cs = "AIDX".toList then some 0x04
  else if cs = "KEY".toList then some 0x05
  else if cs = "LANE".toList then some 0x06
  else if cs = "DOUT".toList then some 0x07
  else if cs = "VOK".toList then some 0x08
  else if cs = "STATUS".toList then some 0x09
  else none

/-- The operand of RD: a register name or a legal selector number (R57, R62). -/
def selector : Tok → Option Byte
  | .word cs =>
    match selOfName cs with
    | some b => some b
    | none => (operand 8 (.word cs)).bind fun b => if b ≤ maxSel then some b else none
  | .num _ => none
  | .str _ => none
  | .comma => none
  | .lpar => none
  | .rpar => none

/-- A list of constraint pairs `(m1,r1), ..., (mk,rk)` (R63). -/
def pairList : List Tok → Option (List (Half × Half))
  | [.lpar, m, .comma, r, .rpar] =>
    (operand 16 m).bind fun m => (operand 16 r).map fun r => [(m, r)]
  | .lpar :: m :: .comma :: r :: .rpar :: .comma :: ts =>
    (operand 16 m).bind fun m => (operand 16 r).bind fun r => (pairList ts).map ((m, r) :: ·)
  | _ => none

/-- A list of bytes `, b0, ..., bn` (R63). -/
def byteList : List Tok → Option (List Byte)
  | [] => some []
  | .comma :: b :: ts => (operand 8 b).bind fun b => (byteList ts).map (b :: ·)
  | _ => none

/-- A mnemonic of class `none` (R62). -/
def plainCommand (m : List Char) : Option Instr :=
  if m = "NOP".toList then some .nop
  else if m = "RST".toList then some .rst
  else if m = "PRNG.NEXT".toList then some .prngNext
  else if m = "VAL.LDACC".toList then some .valLdacc
  else if m = "DEC.KEYACC".toList then some .decKeyacc
  else none

/-- A mnemonic with one operand: classes `sel`, `word` and `byte` (R62), and PRNG.SKIP (R63). -/
def oneOperand (m : List Char) (t : Tok) : Option (List Instr) :=
  if m = "RD".toList then (selector t).map fun b => [.rd b]
  else if m = "PRNG.SEED".toList then (operand 32 t).map fun v => [.prngSeed v]
  else if m = "ACC.INIT".toList then (operand 32 t).map fun v => [.accInit v]
  else if m = "VAL.LOAD".toList then (operand 32 t).map fun v => [.valLoad v]
  else if m = "DEC.KEY".toList then (operand 32 t).map fun v => [.decKey v]
  else if m = "ACC.BYTE".toList then (operand 8 t).map fun b => [.accByte b]
  else if m = "DEC.BYTE".toList then (operand 8 t).map fun b => [.decByte b]
  else if m = "PRNG.SKIP".toList then (count t).map fun n => Pseudo.expand (.prngSkip n)
  else none

/-- VAL.CHECK `modulus, residue` (R62) and ACC.STR `base, "s"` (R63), whose string may be empty (DESIGN CHOICE, log
entry 8). -/
def twoOperands (m : List Char) (a b : Tok) : Option (List Instr) :=
  if m = "VAL.CHECK".toList then
    (operand 16 a).bind fun x => (operand 16 b).map fun y => [.valCheck x y]
  else if m = "ACC.STR".toList then
    match b with
    | .str bytes => (operand 32 a).map fun v => Pseudo.expand (.accStr v bytes)
    | _ => none
  else none

/-- VAL.SET and DEC.STR, whose operands are lists (R63). R63 does not say whether a list may be empty: VAL.SET without a
pair is refused, DEC.STR with a key and no byte is DEC.KEY alone (DESIGN CHOICE, log entry 8). -/
def listOperands (m : List Char) (ts : List Tok) : Option (List Instr) :=
  if m = "VAL.SET".toList then (pairList ts).map fun l => Pseudo.expand (.valSet l)
  else if m = "DEC.STR".toList then
    match ts with
    | k :: rest =>
      (operand 32 k).bind fun key => (byteList rest).map fun l => Pseudo.expand (.decStr key l)
    | [] => none
  else none

/-- The commands of a line of tokens; an empty line has none. -/
def parse : List Tok → Option (List Instr)
  | [] => some []
  | [.word m] => (plainCommand m).map fun i => [i]
  | .word m :: ts =>
    if m = "VAL.SET".toList ∨ m = "DEC.STR".toList then listOperands m ts
    else
      match ts with
      | [t] => oneOperand m t
      | [a, .comma, b] => twoOperands m a b
      | _ => none
  | _ => none

/-- The commands of one line of assembler text. -/
def assembleLine (line : String) : Option (List Instr) :=
  (lex (.plain []) line.toList).bind parse

/-- The commands of a program, line by line; one bad line refuses the whole. -/
def assemble : List String → Option (List Instr)
  | [] => some []
  | l :: ls => (assembleLine l).bind fun is => (assemble ls).map (is ++ ·)

end Sys2Proof.Machine.Assembler
end

