-- ==== Sys2Proof/Machine/Platform.lean ====
section
/-! DEFINITION. A platform of `N_INST` independent instances (spec 00_scope.md R10, 10_state.md R36, 60_exceptions.md
R134). The order in which the instances move is free (20_memory.md R49, U1): it is data, and a claim for every
platform is a claim for every interleaving. Log entry 6. -/

namespace Sys2Proof.Machine

/-- The instances, each with its own command port and state, and which port moves next. -/
structure Platform where
  insts : List State
  order : List Nat
deriving DecidableEq, Repr

/-- A platform right after every instance's reset. -/
def Platform.start (c : Config.Params) : Platform :=
  { insts := List.replicate c.nInst State.reset, order := [] }

/-- The host presents a word at port `j`. -/
def Platform.present (p : Platform) (j : Nat) (w : Cmd) : Platform :=
  { p with insts := p.insts.modify j (fun s => s.present w) }

/-- One step of one instance, the one the order names; a port no instance has does nothing. -/
def Platform.step (p : Platform) : Host.Outcome Platform Fault Refusal :=
  match p.order with
  | [] => .next p
  | j :: rest =>
    match p.insts[j]? with
    | none => .next { p with order := rest }
    | some s =>
      match Sys2Proof.Machine.step s with
      | .next t => .next { insts := p.insts.set j t, order := rest }
      | .fault r => .fault r
      | .refused r => .refused r

/-- Every move of the order. -/
def Platform.run : Nat → Platform → Host.Outcome Platform Fault Refusal
  | 0, p => .next p
  | n + 1, p =>
    match p.step with
    | .next q => Platform.run n q
    | .fault r => .fault r
    | .refused r => .refused r

end Sys2Proof.Machine
end

