-- ==== Sys2Proof/Machine/Port.lean ====
section
/-! DEFINITION. The clocked command port around one instance (spec 70_reset_and_hazards.md R149, R151), with LAT as a
parameter. The machine of Step.lean stays at transaction level, as R149 asks; this layer says how its steps sit between
clock edges. Log entry 7. -/

namespace Sys2Proof.Machine.Port

/-- One command as a transaction: registers to registers and response (R149, R152). -/
def transact (w : Cmd) (r : Regs) : Option (Regs × Response) :=
  match step { regs := r, inbox := [.command w], rsps := [] } with
  | .next t => t.rsps.head?.map fun a => (t.regs, a)
  | .fault _ => none
  | .refused _ => none

/-- The input pins sampled at a rising edge (R149). -/
structure Pins where
  rstN     : Bool
  cmdValid : Bool
  cmdData  : Cmd
  rspReady : Bool
deriving DecidableEq, Repr

/-- Where the handshake stands. `busy` counts the edges left until the response is presented. The word kept
in `responding` is the model's record of what is being answered, used by `ended` only. -/
inductive Phase where
  | inReset
  | ready
  | busy (w : Cmd) (left : Nat)
  | responding (w : Cmd) (a : Response)
deriving DecidableEq, Repr

/-- One instance behind its port. -/
structure PortState where
  regs  : Regs
  phase : Phase
deriving DecidableEq, Repr

/-- The port just after a reset edge. -/
def PortState.reset : PortState := { regs := Regs.reset, phase := .inReset }

/-- `cmd_ready` (R149). -/
def PortState.cmdReady (p : PortState) : Bool :=
  match p.phase with
  | .ready => true
  | .inReset | .busy _ _ | .responding _ _ => false

/-- `rsp_valid` with `rsp_data` and `rsp_err`: the response presented, if any (R149). -/
def PortState.rsp (p : PortState) : Option Response :=
  match p.phase with
  | .responding _ a => some a
  | .inReset | .ready | .busy _ _ => none

/-- One rising clock edge (R149). `cmd_data` is sampled at acceptance only; the effects of the command are
visible from the edge that presents its response, LAT edges after acceptance. -/
def edge (lat : Nat) (p : PortState) (x : Pins) : PortState :=
  if x.rstN = false then PortState.reset
  else
    match p.phase with
    | .inReset => { p with phase := .ready }
    | .ready => if x.cmdValid then { p with phase := .busy x.cmdData lat } else p
    | .busy w left =>
      if left ≤ 1 then
        match transact w p.regs with
        | some (r, a) => { regs := r, phase := .responding w a }
        | none => p
      else { p with phase := .busy w (left - 1) }
    | .responding _ _ => if x.rspReady then { p with phase := .ready } else p

/-- The command in flight: accepted, its response not yet taken (R142, R146). -/
def Phase.inFlight : Phase → Option Cmd
  | .inReset => none
  | .ready => none
  | .busy w _ => some w
  | .responding w _ => some w

/-- The host input that ends at an edge: a reset, or a command whose response is taken (at a reset edge it is in flight
still, log entry 7). -/
def ended (p : PortState) (x : Pins) : Option HostInput :=
  if x.rstN = false then some (.resetPin p.phase.inFlight)
  else
    match p.phase with
    | .responding w _ => if x.rspReady then some (.command w) else none
    | .inReset | .ready | .busy _ _ => none

/-- The response the host takes at an edge (R149). At an edge with `rst_n = 0` none is taken, `rsp_ready` or not: R149's
fourth bullet calls it taken, its `rst_n` row and R142 withdraw it, and the model lets the reset win (DESIGN CHOICE, log
entry 7). -/
def taken (p : PortState) (x : Pins) : Option Response :=
  if x.rstN = false then none
  else
    match p.phase with
    | .responding _ a => if x.rspReady then some a else none
    | .inReset | .ready | .busy _ _ => none

/-- The port after a sequence of edges. -/
def runEdges (lat : Nat) : List Pins → PortState → PortState
  | [], p => p
  | x :: xs, p => runEdges lat xs (edge lat p x)

/-- The inputs that end during a sequence of edges, in order. -/
def endedAll (lat : Nat) : List Pins → PortState → List HostInput
  | [], _ => []
  | x :: xs, p => (ended p x).toList ++ endedAll lat xs (edge lat p x)

/-- The responses taken during a sequence of edges, in order. -/
def takenAll (lat : Nat) : List Pins → PortState → List Response
  | [], _ => []
  | x :: xs, p => (taken p x).toList ++ takenAll lat xs (edge lat p x)

end Sys2Proof.Machine.Port
end

