-- ==== Sys2Proof/Safety.lean ====
section
/-! DEFINITION. The terms claims are made in: the source's contract of each unit as the spec quotes it, in plain
arithmetic on numbers and lists; the runs of a machine; and the invariant of a run. -/

namespace Sys2Proof.Safety

open Sys2Proof.Machine

/-! ## The source's contract of each unit -/

/-- `f(x) = x * 1103515245 + 12345 mod 2^32` (40_prng.md R70, R73), the constants on the left as in Ops. -/
def seqNext (x : Nat) : Nat := (12345 + 1103515245 * x) % 2 ^ 32

/-- `f^k(seed)` (R73). -/
def seqState (seed : Nat) : Nat → Nat
  | 0 => seed
  | k + 1 => seqNext (seqState seed k)

/-- `(state / 65536) mod 32768` (R24, R72). -/
def seqOut (x : Nat) : Nat := x / 65536 % 32768

/-- `Σ bytes[j] * (i + j)`: the weighted sum of bytes whose first index is `i` (41_checksum.md R83). -/
def weighted (i : Nat) : List Byte → Nat
  | [] => 0
  | b :: bs => b.toNat * i + weighted (i + 1) bs

/-- `compute(bytes, base)` (R26, R83). -/
def compute (bytes : List Byte) (base : Word) : Nat := (base.toNat + weighted 0 bytes) % 2 ^ 32

/-- `accepts(x, set)` with a zero modulus never satisfied (42_validator.md R93, R94). -/
def accepts (x : Word) (pairs : List (Half × Half)) : Bool :=
  pairs.all fun p => decide (p.1.toNat ≠ 0) && decide (x.toNat % p.1.toNat = p.2.toNat)

/-- `encoded[i] XOR ((key >> ((i mod 4) * 8)) & 0xFF)` (20_memory.md R42). -/
def decodedAt (key : Word) (i : Nat) (e : Byte) : Byte :=
  e ^^^ BitVec.ofNat 8 (key.toNat / 2 ^ (i % 4 * 8) % 256)

/-- `decode(encoded, key)` of bytes whose first index is `i` (43_decoder.md R105). -/
def decodedFrom (key : Word) (i : Nat) : List Byte → List Byte
  | [] => []
  | e :: es => decodedAt key i e :: decodedFrom key (i + 1) es

/-! ## The commands of a list that concern one unit -/

/-- The byte of an ACC.BYTE. -/
def accOperand : Instr → Option Byte
  | .accByte b => some b
  | _ => none

/-- The pair of a VAL.CHECK. -/
def checkOperand : Instr → Option (Half × Half)
  | .valCheck m r => some (m, r)
  | _ => none

/-- The byte of a DEC.BYTE. -/
def decOperand : Instr → Option Byte
  | .decByte b => some b
  | _ => none

/-- PRNG.SEED and RST start the generator anew (R23). -/
def restartsPrng : Instr → Bool
  | .prngSeed _ => true
  | .rst => true
  | _ => false

/-- ACC.INIT and RST start a checksum anew (R26, R27). -/
def restartsAcc : Instr → Bool
  | .accInit _ => true
  | .rst => true
  | _ => false

/-- VAL.LOAD, VAL.LDACC and RST start a constraint set anew (R28, R29). -/
def restartsVal : Instr → Bool
  | .valLoad _ => true
  | .valLdacc => true
  | .rst => true
  | _ => false

/-- DEC.KEY, DEC.KEYACC and RST start the decoder anew (R30, R31). -/
def restartsDec : Instr → Bool
  | .decKey _ => true
  | .decKeyacc => true
  | .rst => true
  | _ => false

/-! ## Runs -/

/-- Let an instance take exactly these inputs, in order, one per step (R146, R152). -/
def runInputs (inputs : List HostInput) (s : State) : Host.Outcome State Fault Refusal :=
  Host.Core.run core inputs.length { s with inbox := inputs }

/-- A legal command that raises E_MOD_ZERO: VAL.CHECK with modulus 0 (60_exceptions.md R120, R124). -/
def zeroModulus : Instr → Bool
  | .valCheck m _ => decide (m = 0#16)
  | _ => false

/-- The commands that can set VOK (10_state.md R29). -/
def loadsVal : Instr → Bool
  | .valLoad _ => true
  | .valLdacc => true
  | _ => false

/-- Whether ERR_ILL is set after an input: an illegal word sets it, a reset clears it (R129, R140). -/
def errIllAfter (before : Bool) : HostInput → Bool
  | .resetPin _ => false
  | .command w =>
    match decode w with
    | .error _ => true
    | .ok i => decide (i ≠ .rst) && before

/-- Whether ERR_MOD0 is set after an input: a legal VAL.CHECK with modulus 0 sets it, a reset clears it
(R129, R140). -/
def errMod0After (before : Bool) : HostInput → Bool
  | .resetPin _ => false
  | .command w =>
    match decode w with
    | .error _ => before
    | .ok i => decide (i ≠ .rst) && (before || zeroModulus i)

/-- An input that is the word of a VAL.CHECK. -/
def isCheck : HostInput → Bool
  | .resetPin _ => false
  | .command w =>
    match decode w with
    | .error _ => false
    | .ok i => (checkOperand i).isSome

/-- An input that can set VOK: the word of a VAL.LOAD or VAL.LDACC (R29). -/
def opensSet : HostInput → Bool
  | .resetPin _ => false
  | .command w =>
    match decode w with
    | .error _ => false
    | .ok i => loadsVal i

/-- A state with another checksum under test. -/
def withVx (s : State) (x : Word) : State := { s with regs := { s.regs with vx := x } }

/-- What an illegal word does (60_exceptions.md R123). -/
def afterIllegal (s : State) : State :=
  { s with regs := { s.regs with status := s.regs.status ||| 1#32 }, rsps := s.rsps ++ [⟨1#32, true⟩] }

/-- "Illegal only, by the encoding", the Errors line of the command rules: a word with this OPC whose masked bits
(30_encoding.md R54) are not the OPC with zeros does what R123 says. -/
def otherWordsIllegal (opc : Byte) (mask : Cmd) : Prop :=
  ∀ (w : Cmd) (s : State), w.extractLsb' 0 8 = opc → w &&& mask ≠ opc.setWidth 64 →
    issueWord w s = .next (afterIllegal s)

/-! ## The invariant of a run -/

/-- What every step keeps: the reserved bits of STATUS are 0 (R33), and POUT is the draw of STATE, or no
draw has been made since the last seed or reset (R24, R25). -/
def Inv (s : State) : Prop :=
  statusReservedZero s.regs.status = true ∧
  (s.regs.pout.toNat = seqOut s.regs.state.toNat ∨ (s.regs.pout = 0 ∧ s.regs.dcnt = 0))

end Sys2Proof.Safety
end

