-- ==== Sys2Proof/Certificates/Slice0/Obligations.lean ====
section
/-! DEFINITION. The statements for the provers, from the numbered rules of spec/. Each says its next state in the
rules' own terms, so that a statement of an instruction's result is also its frame and its completion. -/

open Sys2Proof Sys2Proof.Machine Sys2Proof.Safety

/-! ## Encoding and decoding -/

/-- 30_encoding.md R61, R50: placing the operands back and decoding gives the command again. -/
def Obligations.DecodeOfEncode : Prop :=
  ∀ i : Instr, i.wf = true → decode (encode i) = .ok i

/-- 30_encoding.md R61, R59: decode is injective on legal words and yields well-formed commands only. -/
def Obligations.EncodeOfDecode : Prop :=
  ∀ (w : Cmd) (i : Instr), decode w = .ok i → encode i = w ∧ i.wf = true

/-- 30_encoding.md R58 (a) to (e): the illegal words, and what one does. -/
def Obligations.IllegalWordsAreExactly : Prop :=
  ∀ (w : Cmd) (s : State),
    ((∀ i, decode w ≠ .ok i) ↔
      (w.extractLsb' 0 8 ∉ [0x00#8, 0x01#8, 0x02#8, 0x10#8, 0x11#8, 0x20#8, 0x21#8, 0x30#8, 0x31#8, 0x32#8,
          0x40#8, 0x41#8, 0x42#8]
        ∨ w.extractLsb' 16 16 ≠ 0#16
        ∨ (w.extractLsb' 8 8 ≠ 0#8 ∧ w.extractLsb' 0 8 ≠ 0x02#8)
        ∨ (w.extractLsb' 0 8 = 0x02#8 ∧ 0x09#8 < w.extractLsb' 8 8)
        ∨ (w.extractLsb' 0 8 ∈ [0x00#8, 0x01#8, 0x02#8, 0x11#8, 0x31#8, 0x41#8] ∧ w.extractLsb' 32 32 ≠ 0#32)
        ∨ (w.extractLsb' 0 8 ∈ [0x21#8, 0x42#8] ∧ w.extractLsb' 40 24 ≠ 0#24)))
    ∧ ((∀ i, decode w ≠ .ok i) →
        issueWord w s = .next (afterIllegal s))

/-- 30_encoding.md R52, R54: a word decodes to a row's command iff its masked bits are the row's (and RD's selector is
legal). -/
def Obligations.DecodeAgreesWithOpcodeTable : Prop :=
  ∀ (r : OpRow) (w : Cmd), r ∈ opTable →
    ((∃ i, decode w = .ok i ∧ i.mnemonic = r.name) ↔ r.fits w = true)

/-- 30_encoding.md R50, R52 and the examples of the command rules: words written out from the spec decode to
their commands. -/
def Obligations.SpecWordsDecode : Prop :=
  decode 0x0000000000000000#64 = .ok .nop ∧
  decode 0x0000000000000001#64 = .ok .rst ∧
  decode 0x0000000000000302#64 = .ok (.rd 0x03#8) ∧
  decode 0x8000203D00000010#64 = .ok (.prngSeed 0x8000203D#32) ∧
  decode 0x0000000000000011#64 = .ok .prngNext ∧
  decode 0x7FFFFFFF00000020#64 = .ok (.accInit 0x7FFFFFFF#32) ∧
  decode 0x0000006800000021#64 = .ok (.accByte 0x68#8) ∧
  decode 0x8000203D00000030#64 = .ok (.valLoad 0x8000203D#32) ∧
  decode 0x0000000000000031#64 = .ok .valLdacc ∧
  decode 0x005C007B00000032#64 = .ok (.valCheck 0x7B#16 0x5C#16) ∧
  decode 0x8000203D00000040#64 = .ok (.decKey 0x8000203D#32) ∧
  decode 0x0000000000000041#64 = .ok .decKeyacc ∧
  decode 0x0000004100000042#64 = .ok (.decByte 0x41#8)

/-- 20_memory.md R43: a word sent as bytes, least significant first, decodes as the word does, and the bytes after it
are left. -/
def Obligations.SerialisedWordsDecodeAlike : Prop :=
  ∀ (w : Cmd) (rest : List Byte),
    (wordBytes w).length = 8 ∧
    (∀ k < 8, (wordBytes w)[k]? = some (w.extractLsb' (8 * k) 8)) ∧
    (∀ i, decode w = .ok i → decodeBytes (wordBytes w ++ rest) = .ok (i, rest)) ∧
    (∀ r, decode w = .error r → decodeBytes (wordBytes w ++ rest) = .error r)

/-- 30_encoding.md R62, R63: lines of the spec's assembler notation, with the words the spec gives for them. What R62's
examples leave open is the model's choice, log entry 8. -/
def Obligations.AssemblerLinesEncode : Prop :=
  (Assembler.assembleLine "PRNG.SEED 0x8000203d").map (·.map encode) = some [0x8000203D00000010#64] ∧
  (Assembler.assembleLine "ACC.BYTE 'h'").map (·.map encode) = some [0x0000006800000021#64] ∧
  (Assembler.assembleLine "VAL.CHECK 0x7b, 0x5c").map (·.map encode) = some [0x005C007B00000032#64] ∧
  (Assembler.assembleLine "RD ACC").map (·.map encode) = some [0x0000000000000302#64] ∧
  (Assembler.assembleLine "RD 3").map (·.map encode) = some [0x0000000000000302#64] ∧
  (Assembler.assembleLine "DEC.KEYACC ; comment").map (·.map encode) = some [0x0000000000000041#64] ∧
  (Assembler.assembleLine "PRNG.SKIP 2").map (·.map encode) =
    some [0x0000000000000011#64, 0x0000000000000011#64] ∧
  (Assembler.assembleLine "RD VX") = none

/-! ## One step -/

/-- 30_encoding.md R61, 70_reset_and_hazards.md R152: a step on a legal word runs its command. -/
def Obligations.StepRunsDecodedCommand : Prop :=
  ∀ (s : State) (w : Cmd) (rest : List HostInput) (i : Instr),
    s.inbox = .command w :: rest → decode w = .ok i → step s = exec i { s with inbox := rest }

/-- 60_exceptions.md R123: an illegal word sets ERR_ILL, responds (1, true) and does nothing else. -/
def Obligations.IllegalWordOnlySetsErrIll : Prop :=
  ∀ (s : State) (w : Cmd) (rest : List HostInput),
    s.inbox = .command w :: rest → (∀ i, decode w ≠ .ok i) →
    step s = .next { regs := { s.regs with status := s.regs.status ||| 1#32 }, inbox := rest,
                     rsps := s.rsps ++ [⟨1#32, true⟩] }

/-- 60_exceptions.md R136: with nothing presented the instance holds its state. That this is a step is the model's choice,
log entry 1. -/
def Obligations.IdleStepHoldsState : Prop :=
  ∀ s : State, s.inbox = [] → step s = .next s

/-- 70_reset_and_hazards.md R140, R142: the pin, with or without a command in flight, resets every register
and answers nothing; RST resets every register alike and answers (0, false); this holds before the first reset too. Where
a pin reset lands is the model's choice, log entry 1. -/
def Obligations.PinAndRstResetAlike : Prop :=
  ∀ (s : State) (inFlight : Option Cmd) (rest : List HostInput),
    step { s with inbox := .resetPin inFlight :: rest } =
      .next { regs := State.reset.regs, inbox := rest, rsps := s.rsps } ∧
    issueWord 0x0000000000000001#64 s =
      .next { regs := State.reset.regs, inbox := s.inbox, rsps := s.rsps ++ [⟨0#32, false⟩] }

/-- 70_reset_and_hazards.md R141: every register has the reset value of the table. -/
def Obligations.ResetValuesOfEveryRegister : Prop :=
  State.reset.regs.state = 0x00000000#32 ∧ State.reset.regs.pout = 0#15 ∧ State.reset.regs.dcnt = 0#32 ∧
  State.reset.regs.acc = 0#32 ∧ State.reset.regs.aidx = 0#32 ∧ State.reset.regs.vx = 0#32 ∧
  State.reset.regs.vok = false ∧ State.reset.regs.key = 0#32 ∧ State.reset.regs.lane = 0#2 ∧
  State.reset.regs.dout = 0#8 ∧ State.reset.regs.status = 0#32

/-- 20_memory.md R46, R48, 70_reset_and_hazards.md R146, 93_implementation_defined.md ("No behaviour of HPB is `stuck`"):
every word, legal or not, completes, is consumed, and gets exactly one response. -/
def Obligations.EveryWordCompletesWithOneResponse : Prop :=
  ∀ (s : State) (w : Cmd) (rest : List HostInput), s.inbox = .command w :: rest →
    ∃ (t : State) (a : Response), step s = .next t ∧ t.inbox = rest ∧ t.rsps = s.rsps ++ [a]

/-- 60_exceptions.md R126: legality is checked first, and a word reports at most one error. -/
def Obligations.AtMostOneErrorLegalityFirst : Prop :=
  ∀ (w : Cmd) (s : State), ∃ (t : State) (d : Word) (e : Bool),
    issueWord w s = .next t ∧ t.rsps = s.rsps ++ [⟨d, e⟩] ∧
    ((∀ i, decode w ≠ .ok i) → d = 1#32 ∧ e = true ∧ t.regs.status = s.regs.status ||| 1#32) ∧
    (∀ r, decode w = .ok (.valCheck 0#16 r) → d = 2#32 ∧ e = true ∧ t.regs.status = s.regs.status ||| 2#32) ∧
    (∀ i, decode w = .ok i → (∀ r, i ≠ .valCheck 0#16 r) →
      e = false ∧ (i ≠ .rst → t.regs.status = s.regs.status))

/-! ## The commands, each with its word, its whole next state, and the illegal words of its opcode -/

/-- 44_control.md R110. -/
def Obligations.NopChangesNothing : Prop :=
  encode .nop = 0x0000000000000000#64 ∧ otherWordsIllegal 0x00#8 0xFFFFFFFFFFFFFFFF#64 ∧
  ∀ s : State, exec .nop s = .next { s with rsps := s.rsps ++ [⟨0#32, false⟩] }

/-- 44_control.md R111. -/
def Obligations.RstResetsEveryRegister : Prop :=
  encode .rst = 0x0000000000000001#64 ∧ otherWordsIllegal 0x01#8 0xFFFFFFFFFFFFFFFF#64 ∧
  ∀ s : State, exec .rst s = .next { s with
    regs := { state := 0, pout := 0, dcnt := 0, acc := 0, aidx := 0, key := 0, lane := 0, dout := 0,
              vok := false, status := 0, vx := 0 },
    rsps := s.rsps ++ [⟨0#32, false⟩] }

/-- 44_control.md R112: every selector; the word of an illegal one is illegal, and exec of the term does the same (the
model's choice, log entry 5: decode gives no such term). -/
def Obligations.RdReturnsSelectedRegister : Prop :=
  (∀ sel : Byte, (encode (.rd sel)).toNat = sel.toNat * 2 ^ 8 + 0x02) ∧
  otherWordsIllegal 0x02#8 0xFFFFFFFFFFFF00FF#64 ∧
  (∀ (sel : Byte) (s : State), 0x09#8 < sel → issueWord (encode (.rd sel)) s = .next (afterIllegal s)) ∧
  ∀ s : State,
    let answer (v : Word) : Host.Outcome State Fault Refusal := .next { s with rsps := s.rsps ++ [⟨v, false⟩] }
    exec (.rd 0x00#8) s = answer s.regs.state ∧
    exec (.rd 0x01#8) s = answer (s.regs.pout.setWidth 32) ∧
    exec (.rd 0x02#8) s = answer s.regs.dcnt ∧
    exec (.rd 0x03#8) s = answer s.regs.acc ∧
    exec (.rd 0x04#8) s = answer s.regs.aidx ∧
    exec (.rd 0x05#8) s = answer s.regs.key ∧
    exec (.rd 0x06#8) s = answer (s.regs.lane.setWidth 32) ∧
    exec (.rd 0x07#8) s = answer (s.regs.dout.setWidth 32) ∧
    exec (.rd 0x08#8) s = answer (if s.regs.vok then 1#32 else 0#32) ∧
    exec (.rd 0x09#8) s = answer (s.regs.status &&& 3#32) ∧
    (∀ sel : Byte, 0x09#8 < sel → exec (.rd sel) s = .next (afterIllegal s))

/-- 40_prng.md R71. -/
def Obligations.PrngSeedLoadsAndClears : Prop :=
  otherWordsIllegal 0x10#8 0x00000000FFFFFFFF#64 ∧
  ∀ (seed : Word) (s : State),
    (encode (.prngSeed seed)).toNat = seed.toNat * 2 ^ 32 + 0x10 ∧
    exec (.prngSeed seed) s = .next { s with
      regs := { s.regs with state := seed, pout := 0, dcnt := 0 }, rsps := s.rsps ++ [⟨0#32, false⟩] }

/-- 40_prng.md R72: the state is updated first, and the draw is taken from the updated state. -/
def Obligations.PrngNextDraws : Prop :=
  encode .prngNext = 0x0000000000000011#64 ∧ otherWordsIllegal 0x11#8 0xFFFFFFFFFFFFFFFF#64 ∧
  ∀ s : State, ∃ (x : Word) (d : BitVec 15),
    x.toNat = (0x3039 + 0x41C64E6D * s.regs.state.toNat) % 2 ^ 32 ∧
    d = x.extractLsb' 16 15 ∧ d.toNat = x.toNat / 65536 % 32768 ∧
    exec .prngNext s = .next { s with
      regs := { s.regs with state := x, pout := d, dcnt := s.regs.dcnt + 1 },
      rsps := s.rsps ++ [⟨d.setWidth 32, false⟩] }

/-- 41_checksum.md R80. -/
def Obligations.AccInitStartsChecksum : Prop :=
  otherWordsIllegal 0x20#8 0x00000000FFFFFFFF#64 ∧
  ∀ (base : Word) (s : State),
    (encode (.accInit base)).toNat = base.toNat * 2 ^ 32 + 0x20 ∧
    exec (.accInit base) s = .next { s with
      regs := { s.regs with acc := base, aidx := 0 }, rsps := s.rsps ++ [⟨0#32, false⟩] }

/-- 41_checksum.md R81: the byte is unsigned, and the sum and the product wrap at 2^32. -/
def Obligations.AccByteAddsWeightedByte : Prop :=
  otherWordsIllegal 0x21#8 0xFFFFFF00FFFFFFFF#64 ∧
  ∀ (b : Byte) (s : State),
    (encode (.accByte b)).toNat = b.toNat * 2 ^ 32 + 0x21 ∧
    (let a := BitVec.ofNat 32 (s.regs.acc.toNat + b.toNat * s.regs.aidx.toNat)
     exec (.accByte b) s = .next { s with
       regs := { s.regs with acc := a, aidx := s.regs.aidx + 1 }, rsps := s.rsps ++ [⟨a, false⟩] })

/-- 42_validator.md R90. -/
def Obligations.ValLoadOpensSet : Prop :=
  otherWordsIllegal 0x30#8 0x00000000FFFFFFFF#64 ∧
  ∀ (x : Word) (s : State),
    (encode (.valLoad x)).toNat = x.toNat * 2 ^ 32 + 0x30 ∧
    exec (.valLoad x) s = .next { s with
      regs := { s.regs with vx := x, vok := true }, rsps := s.rsps ++ [⟨0#32, false⟩] }

/-- 42_validator.md R91. -/
def Obligations.ValLdaccOpensSetFromAcc : Prop :=
  encode .valLdacc = 0x0000000000000031#64 ∧ otherWordsIllegal 0x31#8 0xFFFFFFFFFFFFFFFF#64 ∧
  ∀ s : State, exec .valLdacc s = .next { s with
    regs := { s.regs with vx := s.regs.acc, vok := true }, rsps := s.rsps ++ [⟨0#32, false⟩] }

/-- 42_validator.md R92, both cases; the zero modulus is R93 and 60_exceptions.md R124. -/
def Obligations.ValCheckTestsPair : Prop :=
  otherWordsIllegal 0x32#8 0x00000000FFFFFFFF#64 ∧
  ∀ (m r : Half) (s : State),
    (encode (.valCheck m r)).toNat = (r.toNat * 65536 + m.toNat) * 2 ^ 32 + 0x32 ∧
    (m = 0#16 → exec (.valCheck m r) s = .next { s with
      regs := { s.regs with vok := false, status := s.regs.status ||| 2#32 },
      rsps := s.rsps ++ [⟨2#32, true⟩] }) ∧
    (m ≠ 0#16 →
      let ok := s.regs.vok && decide (s.regs.vx.toNat % m.toNat = r.toNat)
      exec (.valCheck m r) s = .next { s with
        regs := { s.regs with vok := ok }, rsps := s.rsps ++ [⟨if ok then 1#32 else 0#32, false⟩] })

/-- 43_decoder.md R100. -/
def Obligations.DecKeyRestartsLanes : Prop :=
  otherWordsIllegal 0x40#8 0x00000000FFFFFFFF#64 ∧
  ∀ (key : Word) (s : State),
    (encode (.decKey key)).toNat = key.toNat * 2 ^ 32 + 0x40 ∧
    exec (.decKey key) s = .next { s with
      regs := { s.regs with key := key, lane := 0 }, rsps := s.rsps ++ [⟨0#32, false⟩] }

/-- 43_decoder.md R101: VOK is not looked at. -/
def Obligations.DecKeyaccCopiesAcc : Prop :=
  encode .decKeyacc = 0x0000000000000041#64 ∧ otherWordsIllegal 0x41#8 0xFFFFFFFFFFFFFFFF#64 ∧
  ∀ s : State, exec .decKeyacc s = .next { s with
    regs := { s.regs with key := s.regs.acc, lane := 0 }, rsps := s.rsps ++ [⟨0#32, false⟩] }

/-- 43_decoder.md R102. -/
def Obligations.DecByteXorsKeyByte : Prop :=
  otherWordsIllegal 0x42#8 0xFFFFFF00FFFFFFFF#64 ∧
  ∀ (b : Byte) (s : State),
    (encode (.decByte b)).toNat = b.toNat * 2 ^ 32 + 0x42 ∧
    (let d := b ^^^ BitVec.ofNat 8 (s.regs.key.toNat / 2 ^ (s.regs.lane.toNat * 8))
     exec (.decByte b) s = .next { s with
       regs := { s.regs with dout := d, lane := BitVec.ofNat 2 ((s.regs.lane.toNat + 1) % 4) },
       rsps := s.rsps ++ [⟨d.setWidth 32, false⟩] })

/-- 20_memory.md R42: lane 0 is the least significant key byte, whatever else the state holds. -/
def Obligations.KeyBytesLeastSignificantFirst : Prop :=
  ∀ s : State,
    let answers (lane : BitVec 2) (k : Byte) : Prop :=
      s.regs.lane = lane →
        ∀ b : Byte, ∃ t, exec (.decByte b) s = .next t ∧ t.regs.dout = b ^^^ k
    answers 0#2 (s.regs.key.extractLsb' 0 8) ∧ answers 1#2 (s.regs.key.extractLsb' 8 8) ∧
    answers 2#2 (s.regs.key.extractLsb' 16 8) ∧ answers 3#2 (s.regs.key.extractLsb' 24 8)

/-! ## Frames -/

/-- The column "written by" of 10_state.md R22, with R33 and 41_checksum.md R85: a command writes no register but its own,
takes nothing from the inbox, and appends one response. -/
def Obligations.RegistersWrittenOnlyByTheirCommands : Prop :=
  ∀ (i : Instr) (s t : State), exec i s = .next t → i ≠ .rst →
    ((∀ v, i ≠ .prngSeed v) → i ≠ .prngNext →
      t.regs.state = s.regs.state ∧ t.regs.pout = s.regs.pout ∧ t.regs.dcnt = s.regs.dcnt) ∧
    ((∀ v, i ≠ .accInit v) → (∀ b, i ≠ .accByte b) →
      t.regs.acc = s.regs.acc ∧ t.regs.aidx = s.regs.aidx) ∧
    ((∀ v, i ≠ .decKey v) → i ≠ .decKeyacc →
      t.regs.key = s.regs.key ∧ ((∀ b, i ≠ .decByte b) → t.regs.lane = s.regs.lane)) ∧
    ((∀ b, i ≠ .decByte b) → t.regs.dout = s.regs.dout) ∧
    ((∀ v, i ≠ .valLoad v) → i ≠ .valLdacc →
      t.regs.vx = s.regs.vx ∧ ((∀ m r, i ≠ .valCheck m r) → t.regs.vok = s.regs.vok)) ∧
    (i.wf = true → (∀ r, i ≠ .valCheck 0#16 r) → t.regs.status = s.regs.status) ∧
    t.inbox = s.inbox ∧ ∃ a, t.rsps = s.rsps ++ [a]

/-! ## The PRNG unit -/

/-- 40_prng.md R73: the draws after a seed depend on the seed and the number of draws alone, whatever commands of the
other units stand between them. -/
def Obligations.DrawsAreFunctionOfSeedAndCount : Prop :=
  ∀ (seed : Word) (cs : List Instr) (s : State), (∀ i ∈ cs, restartsPrng i = false) →
    ∃ t u : State,
      issueAll (.prngSeed seed :: cs) s = .next t ∧
      t.regs.state.toNat = seqState seed.toNat (cs.count .prngNext) ∧
      t.regs.dcnt.toNat = cs.count .prngNext % 2 ^ 32 ∧
      issue .prngNext t = .next u ∧
      u.rsps = t.rsps ++
        [⟨BitVec.ofNat 32 (seqOut (seqState seed.toNat (cs.count .prngNext + 1))), false⟩]

/-- 40_prng.md R76: seeds that differ in bit 31 give the same responses for every number of draws, and their states
differ in bit 31 alone. -/
def Obligations.SeedTwinsDrawAlike : Prop :=
  ∀ (seed : Word) (k : Nat) (s : State), ∃ t u : State,
    issueAll (.prngSeed seed :: List.replicate k .prngNext) s = .next t ∧
    issueAll (.prngSeed (seed ^^^ 0x80000000#32) :: List.replicate k .prngNext) s = .next u ∧
    u.rsps = t.rsps ∧ u.regs = { t.regs with state := t.regs.state ^^^ 0x80000000#32 }

/-- 40_prng.md R74: two consecutive states are never equal. -/
def Obligations.GeneratorHasNoFixedPoint : Prop :=
  ∀ s : State, ∃ t, exec .prngNext s = .next t ∧ t.regs.state ≠ s.regs.state

/-! ## The checksum unit -/

/-- 41_checksum.md R83: after ACC.INIT the accumulator holds the weighted checksum of the bytes fed since, for any
length, whatever commands of the other units stand between them. -/
def Obligations.ChecksumOfByteSequence : Prop :=
  ∀ (base : Word) (cs : List Instr) (s : State), (∀ i ∈ cs, restartsAcc i = false) →
    ∃ t : State,
      issueAll (.accInit base :: cs) s = .next t ∧
      t.regs.acc.toNat = compute (cs.filterMap accOperand) base ∧
      t.regs.aidx.toNat = (cs.filterMap accOperand).length % 2 ^ 32

/-- 41_checksum.md R82: the first byte after ACC.INIT has weight 0: it changes nothing in the machine. -/
def Obligations.FirstByteHasNoWeight : Prop :=
  ∀ (base : Word) (b b' : Byte) (bs : List Byte) (s : State), ∃ t : State,
    issueAll (Pseudo.expand (.accStr base (b :: bs))) s = .next t ∧
    issueAll (Pseudo.expand (.accStr base (b' :: bs))) s = .next t

/-- 41_checksum.md R84: exchanging the bytes at the indices i < j adds (b_i - b_j) * (j - i) mod 2^32. -/
def Obligations.SwappedBytesChangeChecksum : Prop :=
  ∀ (base : Word) (pre mid post : List Byte) (x y : Byte) (s : State), ∃ t u : State,
    issueAll (Pseudo.expand (.accStr base (pre ++ x :: (mid ++ y :: post)))) s = .next t ∧
    issueAll (Pseudo.expand (.accStr base (pre ++ y :: (mid ++ x :: post)))) s = .next u ∧
    u.regs.acc = t.regs.acc +
      (x.setWidth 32 - y.setWidth 32) *
        BitVec.ofNat 32 ((pre.length + 1 + mid.length) - pre.length)

/-! ## The validator -/

/-- 42_validator.md R94: VOK is `accepts` of the pairs checked since the load, whatever commands of the other
units stand between them; the order of the pairs and their repetition do not matter. -/
def Obligations.VokIsConstraintSetVerdict : Prop :=
  (∀ (x : Word) (cs : List Instr) (s : State), (∀ i ∈ cs, restartsVal i = false) →
    ∃ t u : State,
      issueAll (.valLoad x :: cs) s = .next t ∧ t.regs.vok = accepts x (cs.filterMap checkOperand) ∧
      issueAll (.valLdacc :: cs) s = .next u ∧
      u.regs.vok = accepts s.regs.acc (cs.filterMap checkOperand)) ∧
  (∀ (x : Word) (ps qs : List (Half × Half)) (s : State), (∀ p, p ∈ ps ↔ p ∈ qs) →
    ∃ t u : State,
      issueAll (.valLoad x :: Pseudo.expand (.valSet ps)) s = .next t ∧
      issueAll (.valLoad x :: Pseudo.expand (.valSet qs)) s = .next u ∧ u.regs.vok = t.regs.vok)

/-- 60_exceptions.md R124, 42_validator.md R92: a cleared VOK stays clear until a VAL.LOAD or VAL.LDACC, and every
VAL.CHECK with a nonzero modulus then responds 0 without an error. -/
def Obligations.ClearedVokStaysClear : Prop :=
  ∀ (inputs : List HostInput) (s : State), s.regs.vok = false → (∀ h ∈ inputs, opensSet h = false) →
    ∃ t : State, runInputs inputs s = .next t ∧ t.regs.vok = false ∧
      ∀ m r : Half, m ≠ 0#16 → ∃ u : State,
        exec (.valCheck m r) t = .next u ∧ u.rsps = t.rsps ++ [⟨0#32, false⟩]

/-- 42_validator.md R96, first sentence: a residue not below its modulus fails for every VX. -/
def Obligations.ResidueNotBelowModulusFails : Prop :=
  ∀ (m r : Half) (s : State), 1 ≤ m.toNat → m.toNat ≤ r.toNat →
    ∃ t : State, exec (.valCheck m r) s = .next t ∧ t.regs.vok = false ∧
      t.rsps = s.rsps ++ [⟨0#32, false⟩]

/-- 42_validator.md R96, 90_conflicts.md C5: exactly one checksum satisfies the reference constraint set. -/
def Obligations.ReferenceSetHasOneChecksum : Prop :=
  ∀ (x : Word) (s : State), ∃ t : State,
    issueAll (.valLoad x :: Pseudo.expand (.valSet
      [(0x7B#16, 0x5C#16), (0x1C8#16, 0x1D#16), (0x315#16, 0x17C#16), (0x3DB#16, 0x2#16), (0x28E#16, 0x1F1#16),
       (0x141#16, 0x128#16)])) s = .next t ∧
    (t.regs.vok = true ↔ x = 0x8000203D#32)

/-- 10_state.md R28, 42_validator.md R95: a run without VAL.CHECK answers the same whatever checksum is under test, and
nothing but VX itself depends on it. -/
def Obligations.VxNeverReachesAnswers : Prop :=
  ∀ (inputs : List HostInput) (s : State) (x : Word), (∀ h ∈ inputs, isCheck h = false) →
    ∃ t u : State,
      runInputs inputs s = .next t ∧ runInputs inputs (withVx s x) = .next u ∧
      u.rsps = t.rsps ∧ u = withVx t u.regs.vx

/-- 10_state.md R28, 42_validator.md R95: VAL.CHECK leaks no more of VX than whether the pair is satisfied. -/
def Obligations.ValCheckLeaksOneBit : Prop :=
  ∀ (m r : Half) (s : State) (x : Word),
    (m ≠ 0#16 → (s.regs.vx.toNat % m.toNat = r.toNat ↔ x.toNat % m.toNat = r.toNat)) →
    ∃ t : State, exec (.valCheck m r) s = .next t ∧
      exec (.valCheck m r) (withVx s x) = .next (withVx t x)

/-! ## The decoder -/

/-- 43_decoder.md R105: after a key load the j-th DEC.BYTE answers the j-th byte of `decode`, and LANE counts
the bytes mod 4, whatever commands of the other units stand between them. -/
def Obligations.DecodedByteSequence : Prop :=
  ∀ (load : Instr) (key : Word) (cs : List Instr) (s : State),
    (load = .decKey key ∨ (load = .decKeyacc ∧ s.regs.acc = key)) →
    (∀ i ∈ cs, restartsDec i = false) →
    ∃ t : State,
      issueAll (load :: cs) s = .next t ∧ t.regs.key = key ∧
      t.regs.lane.toNat = (cs.filterMap decOperand).length % 4 ∧
      ∀ e : Byte, ∃ u : State, issue (.decByte e) t = .next u ∧
        u.rsps = t.rsps ++ [⟨(decodedAt key (cs.filterMap decOperand).length e).setWidth 32, false⟩]

/-- 30_encoding.md R63, 43_decoder.md R105: the responses of DEC.STR are (0, false) and then `decode` of the bytes. -/
def Obligations.DecStrAnswersDecode : Prop :=
  ∀ (key : Word) (bs : List Byte) (s : State), ∃ t : State,
    issueAll (Pseudo.expand (.decStr key bs)) s = .next t ∧
    t.rsps = s.rsps ++ ⟨0#32, false⟩ :: (decodedFrom key 0 bs).map fun d => ⟨d.setWidth 32, false⟩

/-- 43_decoder.md R104: decoding what was decoded, with the same key, gives the bytes back. Each of the two key loads is
a DEC.KEY or a DEC.KEYACC with that key in ACC. -/
def Obligations.DecodingTwiceGivesBytesBack : Prop :=
  ∀ (load load' : Instr) (key : Word) (xs : List Byte) (s : State),
    (load = .decKey key ∨ (load = .decKeyacc ∧ s.regs.acc = key)) →
    (load' = .decKey key ∨ (load' = .decKeyacc ∧ s.regs.acc = key)) →
    ∃ (ys : List Byte) (t u : State),
      issueAll (load :: xs.map .decByte) s = .next t ∧
      t.rsps = s.rsps ++ ⟨0#32, false⟩ :: ys.map (fun d => ⟨d.setWidth 32, false⟩) ∧
      issueAll (load' :: ys.map .decByte) t = .next u ∧
      u.rsps = t.rsps ++ ⟨0#32, false⟩ :: xs.map fun d => ⟨d.setWidth 32, false⟩

/-- 43_decoder.md R103: bytes four apart use the same key byte. -/
def Obligations.KeyRepeatsEveryFourBytes : Prop :=
  ∀ (b x y z : Byte) (s : State), ∃ t u v : State,
    issue (.decByte b) s = .next t ∧
    issueAll [.decByte x, .decByte y, .decByte z] t = .next u ∧
    issue (.decByte b) u = .next v ∧ v.regs.dout = t.regs.dout ∧ u.regs.lane = s.regs.lane

/-! ## Errors and the invariant -/

/-- 60_exceptions.md R129, 10_state.md R33: STATUS records whether each cause has happened since the last reset, over any
run of words and pin resets. -/
def Obligations.StatusRecordsErrorsSinceReset : Prop :=
  ∀ (inputs : List HostInput) (s : State), ∃ t : State,
    runInputs inputs s = .next t ∧
    t.regs.status.getLsbD 0 = inputs.foldl errIllAfter (s.regs.status.getLsbD 0) ∧
    t.regs.status.getLsbD 1 = inputs.foldl errMod0After (s.regs.status.getLsbD 1)

/-- 70_reset_and_hazards.md R141: the invariant holds after reset. -/
def Obligations.InvariantHoldsAtReset : Prop := Inv State.reset

/-- 10_state.md R24, R25, R33: every step keeps the reserved bits of STATUS at 0 and POUT the draw of STATE. -/
def Obligations.EveryStepKeepsInvariant : Prop :=
  ∀ s t : State, Inv s → step s = .next t → Inv t

/-- 70_reset_and_hazards.md R152: a run is the commands issued one after another, with one response each. -/
def Obligations.RunIsCommandsInOrder : Prop :=
  ∀ (cs : List Instr) (s : State), ∃ t : State,
    runInputs (cs.map fun i => .command (encode i)) s = .next t ∧ t.inbox = [] ∧
    issueAll cs s = .next { t with inbox := s.inbox } ∧ t.rsps.length = s.rsps.length + cs.length

/-! ## Platform and port -/

/-- 10_state.md R36, 70_reset_and_hazards.md R140: a move of one instance, a reset too, touches no other. -/
def Obligations.InstanceMovesAlone : Prop :=
  ∀ p : Platform, ∃ q : Platform, p.step = .next q ∧ q.order = p.order.tail ∧
    q.insts.length = p.insts.length ∧
    ∀ j, p.order.head? ≠ some j → q.insts[j]? = p.insts[j]?

/-- 20_memory.md R49, 60_exceptions.md R134, U1: in every interleaving each instance ends where it would have ended alone
with the same number of its own moves. -/
def Obligations.InterleavingShowsNothing : Prop :=
  ∀ (p : Platform) (n j : Nat) (s : State), n ≤ p.order.length → p.insts[j]? = some s →
    ∃ (q : Platform) (t : State),
      Platform.run n p = .next q ∧ q.insts[j]? = some t ∧
      Host.Core.run core ((p.order.take n).count j) s = .next t

/-- 70_reset_and_hazards.md R149, R151: a command accepted at an edge is answered exactly LAT edges later, with
the effects of the transaction and not before. -/
def Obligations.ResponseAfterLatEdges : Prop :=
  ∀ (lat : Nat) (r : Regs) (x : Port.Pins) (xs : List Port.Pins),
    1 ≤ lat → x.rstN = true → x.cmdValid = true → (∀ y ∈ xs, y.rstN = true) → xs.length = lat →
    (∀ n < lat, ∀ q, q = Port.runEdges lat (x :: xs.take n) ⟨r, .ready⟩ →
      q.cmdReady = false ∧ q.rsp = none ∧ q.regs = r) ∧
    ∃ (r' : Regs) (a : Response), Port.transact x.cmdData r = some (r', a) ∧
      (Port.runEdges lat (x :: xs) ⟨r, .ready⟩).regs = r' ∧
      (Port.runEdges lat (x :: xs) ⟨r, .ready⟩).rsp = some a

/-- 70_reset_and_hazards.md R149: a response is stable until it is taken, then cmd_ready returns; a reset edge
withdraws both. When cmd_ready rises after a reset is the model's choice, log entry 7. -/
def Obligations.PortHoldsResponseUntilTaken : Prop :=
  ∀ (lat : Nat) (p : Port.PortState) (a : Response) (x : Port.Pins), p.rsp = some a →
    p.cmdReady = false ∧
    (x.rstN = true → x.rspReady = false → Port.edge lat p x = p) ∧
    (x.rstN = true → x.rspReady = true →
      (Port.edge lat p x).cmdReady = true ∧ (Port.edge lat p x).rsp = none ∧
      (Port.edge lat p x).regs = p.regs) ∧
    (x.rstN = false →
      (Port.edge lat p x).cmdReady = false ∧ (Port.edge lat p x).rsp = none ∧
      (Port.edge lat p x).regs = State.reset.regs)

/-- 70_reset_and_hazards.md R149, R142, R146: whatever the pins do, the clocked port does what the transaction-level
machine does on the inputs that have ended, and the host takes the same responses. That a response with rsp_ready = 1 at a
reset edge is not taken is the model's choice, log entry 7. -/
def Obligations.PortRefinesTransactions : Prop :=
  ∀ (lat : Nat) (r : Regs) (xs : List Port.Pins), ∃ t : State,
    runInputs (Port.endedAll lat xs ⟨r, .ready⟩) { regs := r, inbox := [], rsps := [] } = .next t ∧
    t.rsps = Port.takenAll lat xs ⟨r, .ready⟩ ∧
    match (Port.runEdges lat xs ⟨r, .ready⟩).phase with
    | .responding w a => Port.transact w t.regs = some ((Port.runEdges lat xs ⟨r, .ready⟩).regs, a)
    | .inReset | .ready | .busy _ _ => t.regs = (Port.runEdges lat xs ⟨r, .ready⟩).regs

/-! ## The host flows -/

/-- 70_reset_and_hazards.md R144, 60_exceptions.md R121: the unlock flow releases the decoded payload iff the secret's
checksum satisfies the set and the payload's checksum is the expected one; on a rejected checksum the decoder is not touched.
Host software: log entry 9. -/
def Obligations.UnlockFlowVerdict : Prop :=
  ∀ (secret : List Byte) (pairs : List (Half × Half)) (encoded : List Byte) (expected : Word) (s : State),
    ∃ (v : Verdict) (t : State), unlock secret pairs encoded expected s = .next (v, t) ∧
      (accepts (BitVec.ofNat 32 (compute secret 0x7FFFFFFF#32)) pairs = false →
        v = .invalidKey ∧ t.regs.key = s.regs.key ∧ t.regs.lane = s.regs.lane ∧ t.regs.dout = s.regs.dout) ∧
      (accepts (BitVec.ofNat 32 (compute secret 0x7FFFFFFF#32)) pairs = true →
        let ds := decodedFrom (BitVec.ofNat 32 (compute secret 0x7FFFFFFF#32)) 0 encoded
        v = if compute ds 0 = expected.toNat then .released ds else .corruptedPayload)

/-- 70_reset_and_hazards.md R145, 40_prng.md R75, 90_conflicts.md C3: the search enumerates exactly the seeds whose draws
have the fingerprint's low bytes at its 1-based positions. Host software: log entry 9. -/
def Obligations.SeedSearchEnumeratesMatches : Prop :=
  ∀ (fp : Fingerprint) (seeds : List Word) (s : State), (∀ p ∈ fp, 1 ≤ p.1) →
    ∃ t : State, seedSearch fp seeds s = .next
      (seeds.filter (fun x => fp.all fun p => decide (seqOut (seqState x.toNat p.1) % 256 = p.2.toNat)), t)
end

