-- ==== Sys2Proof/Laws/Encoding.lean ====
section
/-! SUPPORT. Fields and encodings: a word is its four fields, the fields of an encoded word are the fields put in, and
each operand class accepts exactly the words its rule admits (spec 30_encoding.md R50 to R57). -/

namespace Sys2Proof

/-! ## A word and its fields -/

@[simp] theorem opcOf_cmdWord (o s : Byte) (a : Word) : opcOf (cmdWord o s a) = o := by
  apply BitVec.eq_of_getLsbD_eq
  intro i hi
  simp only [opcOf, cmdWord, BitVec.getLsbD_extractLsb', BitVec.getLsbD_append, Nat.zero_add]
  simp [hi, show i < 32 by omega, show i < 16 by omega]

@[simp] theorem selOf_cmdWord (o s : Byte) (a : Word) : selOf (cmdWord o s a) = s := by
  apply BitVec.eq_of_getLsbD_eq
  intro i hi
  simp only [selOf, cmdWord, BitVec.getLsbD_extractLsb', BitVec.getLsbD_append]
  simp [hi, show 8 + i < 32 by omega, show 8 + i < 16 by omega]

@[simp] theorem rsvOf_cmdWord (o s : Byte) (a : Word) : rsvOf (cmdWord o s a) = 0#16 := by
  apply BitVec.eq_of_getLsbD_eq
  intro i hi
  simp only [rsvOf, cmdWord, BitVec.getLsbD_extractLsb', BitVec.getLsbD_append]
  simp [show 16 + i < 32 by omega]

@[simp] theorem argOf_cmdWord (o s : Byte) (a : Word) : argOf (cmdWord o s a) = a := by
  apply BitVec.eq_of_getLsbD_eq
  intro i hi
  simp only [argOf, cmdWord, BitVec.getLsbD_extractLsb', BitVec.getLsbD_append]
  simp [hi]

/-- A word is its four fields, put back in place (R50). -/
theorem fields_append (w : Cmd) : argOf w ++ (rsvOf w ++ (selOf w ++ opcOf w)) = w := by
  unfold argOf rsvOf selOf opcOf
  rw [BitVec.extractLsb'_append_extractLsb'_eq_extractLsb' (by norm_num),
    BitVec.extractLsb'_append_extractLsb'_eq_extractLsb' (by norm_num),
    BitVec.extractLsb'_append_extractLsb'_eq_extractLsb' (by norm_num)]
  simp

/-- A word without reserved bits is the word of its opcode, selector and argument. -/
theorem cmdWord_fields {w : Cmd} (h : rsvOf w = 0#16) : cmdWord (opcOf w) (selOf w) (argOf w) = w := by
  have := fields_append w
  rw [h] at this
  exact this

/-- Words with the same fields are the same word. -/
theorem word_ext {v w : Cmd} (ho : opcOf v = opcOf w) (hs : selOf v = selOf w) (hr : rsvOf v = rsvOf w)
    (ha : argOf v = argOf w) : v = w := by
  rw [← fields_append v, ← fields_append w, ho, hs, hr, ha]

@[simp] theorem opcOf_and (v w : Cmd) : opcOf (v &&& w) = opcOf v &&& opcOf w := BitVec.extractLsb'_and
@[simp] theorem selOf_and (v w : Cmd) : selOf (v &&& w) = selOf v &&& selOf w := BitVec.extractLsb'_and
@[simp] theorem rsvOf_and (v w : Cmd) : rsvOf (v &&& w) = rsvOf v &&& rsvOf w := BitVec.extractLsb'_and
@[simp] theorem argOf_and (v w : Cmd) : argOf (v &&& w) = argOf v &&& argOf w := BitVec.extractLsb'_and

/-- The number of a command word (R50). -/
theorem cmdWord_toNat (o s : Byte) (a : Word) :
    (cmdWord o s a).toNat = a.toNat * 2 ^ 32 + s.toNat * 2 ^ 8 + o.toNat := by
  have ho := o.isLt
  have hs := s.isLt
  have h1 : (s ++ o).toNat = s.toNat * 2 ^ 8 + o.toNat := by
    rw [BitVec.toNat_append, ← Nat.shiftLeft_add_eq_or_of_lt ho, Nat.shiftLeft_eq]
  have h2 : (0#16 ++ (s ++ o)).toNat = s.toNat * 2 ^ 8 + o.toNat := by
    rw [BitVec.toNat_append, h1]
    simp
  unfold cmdWord
  rw [BitVec.toNat_append, h2, ← Nat.shiftLeft_add_eq_or_of_lt (by omega), Nat.shiftLeft_eq]
  omega

/-! ## Arguments -/

@[simp] theorem argByte_byteArg (b : Byte) : argByte (byteArg b) = b := by
  apply BitVec.eq_of_getLsbD_eq
  intro i hi
  simp only [argByte, byteArg, BitVec.getLsbD_extractLsb', BitVec.getLsbD_append, Nat.zero_add]
  simp [hi]

@[simp] theorem argAboveByte_byteArg (b : Byte) : argAboveByte (byteArg b) = 0#24 := by
  apply BitVec.eq_of_getLsbD_eq
  intro i hi
  simp only [argAboveByte, byteArg, BitVec.getLsbD_extractLsb', BitVec.getLsbD_append]
  simp

@[simp] theorem argModulus_pairArg (m r : Half) : argModulus (pairArg m r) = m := by
  apply BitVec.eq_of_getLsbD_eq
  intro i hi
  simp only [argModulus, pairArg, BitVec.getLsbD_extractLsb', BitVec.getLsbD_append, Nat.zero_add]
  simp [hi]

@[simp] theorem argResidue_pairArg (m r : Half) : argResidue (pairArg m r) = r := by
  apply BitVec.eq_of_getLsbD_eq
  intro i hi
  simp only [argResidue, pairArg, BitVec.getLsbD_extractLsb', BitVec.getLsbD_append]
  simp [hi]

theorem byteArg_argByte {a : Word} (h : argAboveByte a = 0#24) : byteArg (argByte a) = a := by
  unfold byteArg
  rw [← h]
  unfold argAboveByte argByte
  rw [BitVec.extractLsb'_append_extractLsb'_eq_extractLsb' (by norm_num)]
  simp

theorem pairArg_fields (a : Word) : pairArg (argModulus a) (argResidue a) = a := by
  unfold pairArg argModulus argResidue
  rw [BitVec.extractLsb'_append_extractLsb'_eq_extractLsb' (by norm_num)]
  simp

theorem byteArg_toNat (b : Byte) : (byteArg b).toNat = b.toNat := by
  rw [byteArg, BitVec.toNat_append]
  simp

theorem pairArg_toNat (m r : Half) : (pairArg m r).toNat = r.toNat * 65536 + m.toNat := by
  simp only [pairArg, BitVec.toNat_append]
  rw [← Nat.shiftLeft_add_eq_or_of_lt m.isLt, Nat.shiftLeft_eq]

/-! ## Operand classes -/

theorem takeNone_ok {i j : Instr} {w : Cmd} :
    takeNone i w = .ok j ↔ selOf w = 0#8 ∧ argOf w = 0#32 ∧ i = j := by
  unfold takeNone
  split <;> (try split) <;> simp_all

theorem takeSel_ok {k : Byte → Instr} {j : Instr} {w : Cmd} :
    takeSel k w = .ok j ↔ selOf w ≤ maxSel ∧ argOf w = 0#32 ∧ k (selOf w) = j := by
  unfold takeSel
  split <;> (try split) <;> simp_all

theorem takeWord_ok {k : Word → Instr} {j : Instr} {w : Cmd} :
    takeWord k w = .ok j ↔ selOf w = 0#8 ∧ k (argOf w) = j := by
  unfold takeWord
  split <;> simp_all

theorem takeByte_ok {k : Byte → Instr} {j : Instr} {w : Cmd} :
    takeByte k w = .ok j ↔ selOf w = 0#8 ∧ argAboveByte (argOf w) = 0#24 ∧ k (argByte (argOf w)) = j := by
  unfold takeByte
  split <;> (try split) <;> simp_all

theorem takePair_ok {k : Half → Half → Instr} {j : Instr} {w : Cmd} :
    takePair k w = .ok j ↔ selOf w = 0#8 ∧ k (argModulus (argOf w)) (argResidue (argOf w)) = j := by
  unfold takePair
  split <;> simp_all

/-- A legal word has no reserved bits, and its opcode's case accepts it (R61). -/
theorem decode_ok {w : Cmd} {i : Instr} : decode w = .ok i ↔ rsvOf w = 0#16 ∧ decodeOpc w = .ok i := by
  unfold decode
  split <;> simp_all

/-- The cases of the decode function, by opcode (R52, R61). -/
theorem decodeOpc_cases (w : Cmd) :
    (opcOf w = 0x00#8 ∧ decodeOpc w = takeNone .nop w) ∨
    (opcOf w = 0x01#8 ∧ decodeOpc w = takeNone .rst w) ∨
    (opcOf w = 0x02#8 ∧ decodeOpc w = takeSel .rd w) ∨
    (opcOf w = 0x10#8 ∧ decodeOpc w = takeWord .prngSeed w) ∨
    (opcOf w = 0x11#8 ∧ decodeOpc w = takeNone .prngNext w) ∨
    (opcOf w = 0x20#8 ∧ decodeOpc w = takeWord .accInit w) ∨
    (opcOf w = 0x21#8 ∧ decodeOpc w = takeByte .accByte w) ∨
    (opcOf w = 0x30#8 ∧ decodeOpc w = takeWord .valLoad w) ∨
    (opcOf w = 0x31#8 ∧ decodeOpc w = takeNone .valLdacc w) ∨
    (opcOf w = 0x32#8 ∧ decodeOpc w = takePair .valCheck w) ∨
    (opcOf w = 0x40#8 ∧ decodeOpc w = takeWord .decKey w) ∨
    (opcOf w = 0x41#8 ∧ decodeOpc w = takeNone .decKeyacc w) ∨
    (opcOf w = 0x42#8 ∧ decodeOpc w = takeByte .decByte w) ∨
    (opcOf w ∉ [0x00#8, 0x01#8, 0x02#8, 0x10#8, 0x11#8, 0x20#8, 0x21#8, 0x30#8, 0x31#8, 0x32#8,
        0x40#8, 0x41#8, 0x42#8] ∧
      decodeOpc w = .error .unassignedOpcode) := by
  by_cases h0x00 : opcOf w = 0x00#8
  · simp [decodeOpc, h0x00]
  by_cases h0x01 : opcOf w = 0x01#8
  · simp [decodeOpc, h0x01]
  by_cases h0x02 : opcOf w = 0x02#8
  · simp [decodeOpc, h0x02]
  by_cases h0x10 : opcOf w = 0x10#8
  · simp [decodeOpc, h0x10]
  by_cases h0x11 : opcOf w = 0x11#8
  · simp [decodeOpc, h0x11]
  by_cases h0x20 : opcOf w = 0x20#8
  · simp [decodeOpc, h0x20]
  by_cases h0x21 : opcOf w = 0x21#8
  · simp [decodeOpc, h0x21]
  by_cases h0x30 : opcOf w = 0x30#8
  · simp [decodeOpc, h0x30]
  by_cases h0x31 : opcOf w = 0x31#8
  · simp [decodeOpc, h0x31]
  by_cases h0x32 : opcOf w = 0x32#8
  · simp [decodeOpc, h0x32]
  by_cases h0x40 : opcOf w = 0x40#8
  · simp [decodeOpc, h0x40]
  by_cases h0x41 : opcOf w = 0x41#8
  · simp [decodeOpc, h0x41]
  by_cases h0x42 : opcOf w = 0x42#8
  · simp [decodeOpc, h0x42]
  simp [decodeOpc, h0x00, h0x01, h0x02, h0x10, h0x11, h0x20, h0x21, h0x30, h0x31, h0x32, h0x40, h0x41, h0x42]

/-- A word is illegal when decode rejects it, whatever the reason. -/
theorem decode_not_ok {w : Cmd} : (∀ i, decode w ≠ .ok i) ↔ ∃ r, decode w = .error r := by
  cases h : decode w <;> simp

/-- The unused bits of a byte argument are bits 63:40 of the word. -/
theorem argAboveByte_argOf (w : Cmd) : argAboveByte (argOf w) = w.extractLsb' 40 24 := by
  apply BitVec.eq_of_getLsbD_eq
  intro i hi
  simp only [argAboveByte, argOf, BitVec.getLsbD_extractLsb']
  simp [hi, show 8 + i < 32 by omega, show 32 + (8 + i) = 40 + i by omega]

/-! ## When an operand class rejects -/

theorem takeNone_not_ok {i : Instr} {w : Cmd} :
    (∀ j, takeNone i w ≠ .ok j) ↔ selOf w ≠ 0#8 ∨ argOf w ≠ 0#32 := by
  simp only [ne_eq, takeNone_ok]
  by_cases h : selOf w = 0#8 <;> by_cases h' : argOf w = 0#32 <;> simp [h, h']

theorem takeSel_not_ok {k : Byte → Instr} {w : Cmd} :
    (∀ j, takeSel k w ≠ .ok j) ↔ maxSel < selOf w ∨ argOf w ≠ 0#32 := by
  simp only [ne_eq, takeSel_ok, ← BitVec.not_le]
  by_cases h : selOf w ≤ maxSel <;> by_cases h' : argOf w = 0#32 <;> simp [h, h']

theorem takeWord_not_ok {k : Word → Instr} {w : Cmd} :
    (∀ j, takeWord k w ≠ .ok j) ↔ selOf w ≠ 0#8 := by
  simp only [ne_eq, takeWord_ok]
  by_cases h : selOf w = 0#8 <;> simp [h]

theorem takePair_not_ok {k : Half → Half → Instr} {w : Cmd} :
    (∀ j, takePair k w ≠ .ok j) ↔ selOf w ≠ 0#8 := by
  simp only [ne_eq, takePair_ok]
  by_cases h : selOf w = 0#8 <;> simp [h]

theorem takeByte_not_ok {k : Byte → Instr} {w : Cmd} :
    (∀ j, takeByte k w ≠ .ok j) ↔ selOf w ≠ 0#8 ∨ argAboveByte (argOf w) ≠ 0#24 := by
  simp only [ne_eq, takeByte_ok]
  by_cases h : selOf w = 0#8 <;> by_cases h' : argAboveByte (argOf w) = 0#24 <;> simp [h, h']

/-! ## Masks -/

/-- A mask test is the four field tests (R54). -/
theorem mask_fields (w m b : Cmd) :
    w &&& m = b ↔
      opcOf w &&& opcOf m = opcOf b ∧ selOf w &&& selOf m = selOf b ∧
      rsvOf w &&& rsvOf m = rsvOf b ∧ argOf w &&& argOf m = argOf b := by
  constructor
  · rintro rfl
    simp
  · rintro ⟨ho, hs, hr, ha⟩
    apply word_ext <;> simpa

/-- The mask of the class `byte` on the argument (R54). -/
theorem and_byteMask (a : Word) : a &&& 0xFFFFFF00#32 = 0#32 ↔ argAboveByte a = 0#24 := by
  have e1 : argAboveByte (a &&& 0xFFFFFF00#32) = argAboveByte a := by
    rw [argAboveByte, BitVec.extractLsb'_and,
      show BitVec.extractLsb' 8 24 0xFFFFFF00#32 = BitVec.allOnes 24 by decide, BitVec.and_allOnes]
    rfl
  have e2 : argByte (a &&& 0xFFFFFF00#32) = 0#8 := by
    rw [argByte, BitVec.extractLsb'_and, show BitVec.extractLsb' 0 8 0xFFFFFF00#32 = 0#8 by decide,
      BitVec.and_zero]
  constructor
  · intro h
    rw [← e1, h]
    rfl
  · intro h
    rw [← byteArg_argByte (e1.trans h), e2]
    rfl

/-! ## Bytes -/

/-- The bytes of a word make the word again (R43). -/
theorem joinBytes_wordBytes (w : Cmd) :
    joinBytes (w.extractLsb' 0 8) (w.extractLsb' 8 8) (w.extractLsb' 16 8) (w.extractLsb' 24 8)
      (w.extractLsb' 32 8) (w.extractLsb' 40 8) (w.extractLsb' 48 8) (w.extractLsb' 56 8) = w := by
  unfold joinBytes
  rw [BitVec.extractLsb'_append_extractLsb'_eq_extractLsb' (by norm_num),
    BitVec.extractLsb'_append_extractLsb'_eq_extractLsb' (by norm_num),
    BitVec.extractLsb'_append_extractLsb'_eq_extractLsb' (by norm_num),
    BitVec.extractLsb'_append_extractLsb'_eq_extractLsb' (by norm_num),
    BitVec.extractLsb'_append_extractLsb'_eq_extractLsb' (by norm_num),
    BitVec.extractLsb'_append_extractLsb'_eq_extractLsb' (by norm_num),
    BitVec.extractLsb'_append_extractLsb'_eq_extractLsb' (by norm_num)]
  simp

end Sys2Proof
end

