-- ==== Sys2Proof/Laws/State.lean ====
section
/-! SUPPORT. One lemma per field per update of State, each true by rfl, so that no proof unfolds a record update. -/

namespace Sys2Proof.Machine

variable (s : State)

/-! ## setPrng -/

@[simp] theorem State.setPrng_state (state : Word) (pout : BitVec 15) (dcnt : Word) :
    (s.setPrng state pout dcnt).regs.state = state := rfl
@[simp] theorem State.setPrng_pout (state : Word) (pout : BitVec 15) (dcnt : Word) :
    (s.setPrng state pout dcnt).regs.pout = pout := rfl
@[simp] theorem State.setPrng_dcnt (state : Word) (pout : BitVec 15) (dcnt : Word) :
    (s.setPrng state pout dcnt).regs.dcnt = dcnt := rfl
@[simp] theorem State.setPrng_acc (state : Word) (pout : BitVec 15) (dcnt : Word) :
    (s.setPrng state pout dcnt).regs.acc = s.regs.acc := rfl
@[simp] theorem State.setPrng_aidx (state : Word) (pout : BitVec 15) (dcnt : Word) :
    (s.setPrng state pout dcnt).regs.aidx = s.regs.aidx := rfl
@[simp] theorem State.setPrng_key (state : Word) (pout : BitVec 15) (dcnt : Word) :
    (s.setPrng state pout dcnt).regs.key = s.regs.key := rfl
@[simp] theorem State.setPrng_lane (state : Word) (pout : BitVec 15) (dcnt : Word) :
    (s.setPrng state pout dcnt).regs.lane = s.regs.lane := rfl
@[simp] theorem State.setPrng_dout (state : Word) (pout : BitVec 15) (dcnt : Word) :
    (s.setPrng state pout dcnt).regs.dout = s.regs.dout := rfl
@[simp] theorem State.setPrng_vok (state : Word) (pout : BitVec 15) (dcnt : Word) :
    (s.setPrng state pout dcnt).regs.vok = s.regs.vok := rfl
@[simp] theorem State.setPrng_status (state : Word) (pout : BitVec 15) (dcnt : Word) :
    (s.setPrng state pout dcnt).regs.status = s.regs.status := rfl
@[simp] theorem State.setPrng_vx (state : Word) (pout : BitVec 15) (dcnt : Word) :
    (s.setPrng state pout dcnt).regs.vx = s.regs.vx := rfl
@[simp] theorem State.setPrng_inbox (state : Word) (pout : BitVec 15) (dcnt : Word) : (s.setPrng state pout dcnt).inbox = s.inbox := rfl
@[simp] theorem State.setPrng_rsps (state : Word) (pout : BitVec 15) (dcnt : Word) : (s.setPrng state pout dcnt).rsps = s.rsps := rfl

/-! ## setAcc -/

@[simp] theorem State.setAcc_state (acc aidx : Word) :
    (s.setAcc acc aidx).regs.state = s.regs.state := rfl
@[simp] theorem State.setAcc_pout (acc aidx : Word) :
    (s.setAcc acc aidx).regs.pout = s.regs.pout := rfl
@[simp] theorem State.setAcc_dcnt (acc aidx : Word) :
    (s.setAcc acc aidx).regs.dcnt = s.regs.dcnt := rfl
@[simp] theorem State.setAcc_acc (acc aidx : Word) :
    (s.setAcc acc aidx).regs.acc = acc := rfl
@[simp] theorem State.setAcc_aidx (acc aidx : Word) :
    (s.setAcc acc aidx).regs.aidx = aidx := rfl
@[simp] theorem State.setAcc_key (acc aidx : Word) :
    (s.setAcc acc aidx).regs.key = s.regs.key := rfl
@[simp] theorem State.setAcc_lane (acc aidx : Word) :
    (s.setAcc acc aidx).regs.lane = s.regs.lane := rfl
@[simp] theorem State.setAcc_dout (acc aidx : Word) :
    (s.setAcc acc aidx).regs.dout = s.regs.dout := rfl
@[simp] theorem State.setAcc_vok (acc aidx : Word) :
    (s.setAcc acc aidx).regs.vok = s.regs.vok := rfl
@[simp] theorem State.setAcc_status (acc aidx : Word) :
    (s.setAcc acc aidx).regs.status = s.regs.status := rfl
@[simp] theorem State.setAcc_vx (acc aidx : Word) :
    (s.setAcc acc aidx).regs.vx = s.regs.vx := rfl
@[simp] theorem State.setAcc_inbox (acc aidx : Word) : (s.setAcc acc aidx).inbox = s.inbox := rfl
@[simp] theorem State.setAcc_rsps (acc aidx : Word) : (s.setAcc acc aidx).rsps = s.rsps := rfl

/-! ## setVal -/

@[simp] theorem State.setVal_state (vx : Word) (vok : Bool) :
    (s.setVal vx vok).regs.state = s.regs.state := rfl
@[simp] theorem State.setVal_pout (vx : Word) (vok : Bool) :
    (s.setVal vx vok).regs.pout = s.regs.pout := rfl
@[simp] theorem State.setVal_dcnt (vx : Word) (vok : Bool) :
    (s.setVal vx vok).regs.dcnt = s.regs.dcnt := rfl
@[simp] theorem State.setVal_acc (vx : Word) (vok : Bool) :
    (s.setVal vx vok).regs.acc = s.regs.acc := rfl
@[simp] theorem State.setVal_aidx (vx : Word) (vok : Bool) :
    (s.setVal vx vok).regs.aidx = s.regs.aidx := rfl
@[simp] theorem State.setVal_key (vx : Word) (vok : Bool) :
    (s.setVal vx vok).regs.key = s.regs.key := rfl
@[simp] theorem State.setVal_lane (vx : Word) (vok : Bool) :
    (s.setVal vx vok).regs.lane = s.regs.lane := rfl
@[simp] theorem State.setVal_dout (vx : Word) (vok : Bool) :
    (s.setVal vx vok).regs.dout = s.regs.dout := rfl
@[simp] theorem State.setVal_vok (vx : Word) (vok : Bool) :
    (s.setVal vx vok).regs.vok = vok := rfl
@[simp] theorem State.setVal_status (vx : Word) (vok : Bool) :
    (s.setVal vx vok).regs.status = s.regs.status := rfl
@[simp] theorem State.setVal_vx (vx : Word) (vok : Bool) :
    (s.setVal vx vok).regs.vx = vx := rfl
@[simp] theorem State.setVal_inbox (vx : Word) (vok : Bool) : (s.setVal vx vok).inbox = s.inbox := rfl
@[simp] theorem State.setVal_rsps (vx : Word) (vok : Bool) : (s.setVal vx vok).rsps = s.rsps := rfl

/-! ## setVok -/

@[simp] theorem State.setVok_state (vok : Bool) :
    (s.setVok vok).regs.state = s.regs.state := rfl
@[simp] theorem State.setVok_pout (vok : Bool) :
    (s.setVok vok).regs.pout = s.regs.pout := rfl
@[simp] theorem State.setVok_dcnt (vok : Bool) :
    (s.setVok vok).regs.dcnt = s.regs.dcnt := rfl
@[simp] theorem State.setVok_acc (vok : Bool) :
    (s.setVok vok).regs.acc = s.regs.acc := rfl
@[simp] theorem State.setVok_aidx (vok : Bool) :
    (s.setVok vok).regs.aidx = s.regs.aidx := rfl
@[simp] theorem State.setVok_key (vok : Bool) :
    (s.setVok vok).regs.key = s.regs.key := rfl
@[simp] theorem State.setVok_lane (vok : Bool) :
    (s.setVok vok).regs.lane = s.regs.lane := rfl
@[simp] theorem State.setVok_dout (vok : Bool) :
    (s.setVok vok).regs.dout = s.regs.dout := rfl
@[simp] theorem State.setVok_vok (vok : Bool) :
    (s.setVok vok).regs.vok = vok := rfl
@[simp] theorem State.setVok_status (vok : Bool) :
    (s.setVok vok).regs.status = s.regs.status := rfl
@[simp] theorem State.setVok_vx (vok : Bool) :
    (s.setVok vok).regs.vx = s.regs.vx := rfl
@[simp] theorem State.setVok_inbox (vok : Bool) : (s.setVok vok).inbox = s.inbox := rfl
@[simp] theorem State.setVok_rsps (vok : Bool) : (s.setVok vok).rsps = s.rsps := rfl

/-! ## setKey -/

@[simp] theorem State.setKey_state (key : Word) (lane : BitVec 2) :
    (s.setKey key lane).regs.state = s.regs.state := rfl
@[simp] theorem State.setKey_pout (key : Word) (lane : BitVec 2) :
    (s.setKey key lane).regs.pout = s.regs.pout := rfl
@[simp] theorem State.setKey_dcnt (key : Word) (lane : BitVec 2) :
    (s.setKey key lane).regs.dcnt = s.regs.dcnt := rfl
@[simp] theorem State.setKey_acc (key : Word) (lane : BitVec 2) :
    (s.setKey key lane).regs.acc = s.regs.acc := rfl
@[simp] theorem State.setKey_aidx (key : Word) (lane : BitVec 2) :
    (s.setKey key lane).regs.aidx = s.regs.aidx := rfl
@[simp] theorem State.setKey_key (key : Word) (lane : BitVec 2) :
    (s.setKey key lane).regs.key = key := rfl
@[simp] theorem State.setKey_lane (key : Word) (lane : BitVec 2) :
    (s.setKey key lane).regs.lane = lane := rfl
@[simp] theorem State.setKey_dout (key : Word) (lane : BitVec 2) :
    (s.setKey key lane).regs.dout = s.regs.dout := rfl
@[simp] theorem State.setKey_vok (key : Word) (lane : BitVec 2) :
    (s.setKey key lane).regs.vok = s.regs.vok := rfl
@[simp] theorem State.setKey_status (key : Word) (lane : BitVec 2) :
    (s.setKey key lane).regs.status = s.regs.status := rfl
@[simp] theorem State.setKey_vx (key : Word) (lane : BitVec 2) :
    (s.setKey key lane).regs.vx = s.regs.vx := rfl
@[simp] theorem State.setKey_inbox (key : Word) (lane : BitVec 2) : (s.setKey key lane).inbox = s.inbox := rfl
@[simp] theorem State.setKey_rsps (key : Word) (lane : BitVec 2) : (s.setKey key lane).rsps = s.rsps := rfl

/-! ## setDout -/

@[simp] theorem State.setDout_state (dout : Byte) (lane : BitVec 2) :
    (s.setDout dout lane).regs.state = s.regs.state := rfl
@[simp] theorem State.setDout_pout (dout : Byte) (lane : BitVec 2) :
    (s.setDout dout lane).regs.pout = s.regs.pout := rfl
@[simp] theorem State.setDout_dcnt (dout : Byte) (lane : BitVec 2) :
    (s.setDout dout lane).regs.dcnt = s.regs.dcnt := rfl
@[simp] theorem State.setDout_acc (dout : Byte) (lane : BitVec 2) :
    (s.setDout dout lane).regs.acc = s.regs.acc := rfl
@[simp] theorem State.setDout_aidx (dout : Byte) (lane : BitVec 2) :
    (s.setDout dout lane).regs.aidx = s.regs.aidx := rfl
@[simp] theorem State.setDout_key (dout : Byte) (lane : BitVec 2) :
    (s.setDout dout lane).regs.key = s.regs.key := rfl
@[simp] theorem State.setDout_lane (dout : Byte) (lane : BitVec 2) :
    (s.setDout dout lane).regs.lane = lane := rfl
@[simp] theorem State.setDout_dout (dout : Byte) (lane : BitVec 2) :
    (s.setDout dout lane).regs.dout = dout := rfl
@[simp] theorem State.setDout_vok (dout : Byte) (lane : BitVec 2) :
    (s.setDout dout lane).regs.vok = s.regs.vok := rfl
@[simp] theorem State.setDout_status (dout : Byte) (lane : BitVec 2) :
    (s.setDout dout lane).regs.status = s.regs.status := rfl
@[simp] theorem State.setDout_vx (dout : Byte) (lane : BitVec 2) :
    (s.setDout dout lane).regs.vx = s.regs.vx := rfl
@[simp] theorem State.setDout_inbox (dout : Byte) (lane : BitVec 2) : (s.setDout dout lane).inbox = s.inbox := rfl
@[simp] theorem State.setDout_rsps (dout : Byte) (lane : BitVec 2) : (s.setDout dout lane).rsps = s.rsps := rfl

/-! ## setErr -/

@[simp] theorem State.setErr_state (b : StatusBit) :
    (s.setErr b).regs.state = s.regs.state := rfl
@[simp] theorem State.setErr_pout (b : StatusBit) :
    (s.setErr b).regs.pout = s.regs.pout := rfl
@[simp] theorem State.setErr_dcnt (b : StatusBit) :
    (s.setErr b).regs.dcnt = s.regs.dcnt := rfl
@[simp] theorem State.setErr_acc (b : StatusBit) :
    (s.setErr b).regs.acc = s.regs.acc := rfl
@[simp] theorem State.setErr_aidx (b : StatusBit) :
    (s.setErr b).regs.aidx = s.regs.aidx := rfl
@[simp] theorem State.setErr_key (b : StatusBit) :
    (s.setErr b).regs.key = s.regs.key := rfl
@[simp] theorem State.setErr_lane (b : StatusBit) :
    (s.setErr b).regs.lane = s.regs.lane := rfl
@[simp] theorem State.setErr_dout (b : StatusBit) :
    (s.setErr b).regs.dout = s.regs.dout := rfl
@[simp] theorem State.setErr_vok (b : StatusBit) :
    (s.setErr b).regs.vok = s.regs.vok := rfl
@[simp] theorem State.setErr_status (b : StatusBit) :
    (s.setErr b).regs.status = setStatusBit b s.regs.status := rfl
@[simp] theorem State.setErr_vx (b : StatusBit) :
    (s.setErr b).regs.vx = s.regs.vx := rfl
@[simp] theorem State.setErr_inbox (b : StatusBit) : (s.setErr b).inbox = s.inbox := rfl
@[simp] theorem State.setErr_rsps (b : StatusBit) : (s.setErr b).rsps = s.rsps := rfl

/-! ## respond, resetRegs, raiseError, present -/

@[simp] theorem State.respond_regs (d : Word) (e : Bool) : (s.respond d e).regs = s.regs := rfl
@[simp] theorem State.respond_inbox (d : Word) (e : Bool) : (s.respond d e).inbox = s.inbox := rfl
@[simp] theorem State.respond_rsps (d : Word) (e : Bool) :
    (s.respond d e).rsps = s.rsps ++ [⟨d, e⟩] := rfl
@[simp] theorem State.resetRegs_regs : s.resetRegs.regs = Regs.reset := rfl
@[simp] theorem State.resetRegs_inbox : s.resetRegs.inbox = s.inbox := rfl
@[simp] theorem State.resetRegs_rsps : s.resetRegs.rsps = s.rsps := rfl
@[simp] theorem State.raiseError_regs (c : ErrorCause) :
    (s.raiseError c).regs = (s.setErr c.bit).regs := rfl
@[simp] theorem State.raiseError_inbox (c : ErrorCause) : (s.raiseError c).inbox = s.inbox := rfl
@[simp] theorem State.raiseError_rsps (c : ErrorCause) :
    (s.raiseError c).rsps = s.rsps ++ [⟨c.code, true⟩] := rfl
@[simp] theorem State.present_regs (w : Cmd) : (s.present w).regs = s.regs := rfl
@[simp] theorem State.present_inbox (w : Cmd) : (s.present w).inbox = .command w :: s.inbox := rfl
@[simp] theorem State.present_rsps (w : Cmd) : (s.present w).rsps = s.rsps := rfl
@[simp] theorem State.pinReset_regs (o : Option Cmd) : (s.pinReset o).regs = Regs.reset := rfl
@[simp] theorem State.pinReset_inbox (o : Option Cmd) : (s.pinReset o).inbox = s.inbox := rfl
@[simp] theorem State.pinReset_rsps (o : Option Cmd) : (s.pinReset o).rsps = s.rsps := rfl

end Sys2Proof.Machine
end

