-- ==== Sys2Proof/Laws/Exec.lean ====
section
/-! SUPPORT. What a command, a word and a run can do, said once: exec always answers a next state (`after`), a word
too (`afterWord`), and a run is the fold of them. Later proofs cite these and do not unfold exec, step or Core.run. -/

namespace Sys2Proof.Machine

/-! ## Commands -/

/-- The next state of a command. -/
def after (i : Instr) (s : State) : State :=
  match exec i s with
  | .next t => t
  | .fault _ => s
  | .refused _ => s

theorem regOfSel_none_iff (sel : Byte) : regOfSel sel = none ↔ maxSel < sel := by
  revert sel
  decide

/-- Every command answers a next state. -/
theorem exec_eq_after (i : Instr) (s : State) : exec i s = .next (after i s) := by
  cases i with
  | rd sel =>
    simp only [after, exec, execRd]
    cases regOfSel sel <;> rfl
  | valCheck m r =>
    simp only [after, exec, execValCheck]
    split <;> rfl
  | _ => rfl

@[simp] theorem after_nop (s : State) : after .nop s = s.respond 0#32 false := rfl
@[simp] theorem after_rst (s : State) : after .rst s = s.resetRegs.respond 0#32 false := rfl
@[simp] theorem after_prngSeed (v : Word) (s : State) :
    after (.prngSeed v) s = (s.setPrng v 0#15 0#32).respond 0#32 false := rfl
@[simp] theorem after_prngNext (s : State) :
    after .prngNext s =
      (s.setPrng (prngUpdate s.regs.state) (drawOf (prngUpdate s.regs.state)) (s.regs.dcnt + 1#32)).respond
        (zext (drawOf (prngUpdate s.regs.state))) false := rfl
@[simp] theorem after_accInit (v : Word) (s : State) :
    after (.accInit v) s = (s.setAcc v 0#32).respond 0#32 false := rfl
@[simp] theorem after_accByte (b : Byte) (s : State) :
    after (.accByte b) s =
      (s.setAcc (accTerm s.regs.acc s.regs.aidx b) (s.regs.aidx + 1#32)).respond
        (accTerm s.regs.acc s.regs.aidx b) false := rfl
@[simp] theorem after_valLoad (v : Word) (s : State) :
    after (.valLoad v) s = (s.setVal v true).respond 0#32 false := rfl
@[simp] theorem after_valLdacc (s : State) :
    after .valLdacc s = (s.setVal s.regs.acc true).respond 0#32 false := rfl
@[simp] theorem after_decKey (v : Word) (s : State) :
    after (.decKey v) s = (s.setKey v 0#2).respond 0#32 false := rfl
@[simp] theorem after_decKeyacc (s : State) :
    after .decKeyacc s = (s.setKey s.regs.acc 0#2).respond 0#32 false := rfl
@[simp] theorem after_decByte (b : Byte) (s : State) :
    after (.decByte b) s =
      (s.setDout (b ^^^ keyByte s.regs.key s.regs.lane) (s.regs.lane + 1#2)).respond
        (zext (b ^^^ keyByte s.regs.key s.regs.lane)) false := rfl

theorem after_rd_some {sel : Byte} {r : RdReg} (h : regOfSel sel = some r) (s : State) :
    after (.rd sel) s = s.respond (readReg r s.regs) false := by
  simp [after, exec, execRd, h]

theorem after_rd_none {sel : Byte} (h : regOfSel sel = none) (s : State) :
    after (.rd sel) s = s.raiseError .illegal := by
  simp [after, exec, execRd, h]

theorem after_valCheck_zero (r : Half) (s : State) :
    after (.valCheck 0#16 r) s = (s.setVok false).raiseError .modZero := rfl

theorem after_valCheck_pos {m : Half} (h : m ≠ 0#16) (r : Half) (s : State) :
    after (.valCheck m r) s =
      (s.setVok (vokAfter s.regs.vok s.regs.vx m r)).respond
        (zext (BitVec.ofBool (vokAfter s.regs.vok s.regs.vx m r))) false := by
  simp only [after, exec, execValCheck, if_neg h]

/-- No command takes anything from the inbox. -/
@[simp] theorem after_inbox (i : Instr) (s : State) : (after i s).inbox = s.inbox := by
  cases i with
  | rd sel => cases h : regOfSel sel <;> simp [after_rd_none, after_rd_some, h]
  | valCheck m r =>
    by_cases h : m = 0#16
    · subst h; rfl
    · simp [after_valCheck_pos h]
  | _ => simp

/-- Every command appends exactly one response. -/
theorem after_rsps (i : Instr) (s : State) : ∃ a, (after i s).rsps = s.rsps ++ [a] := by
  cases i with
  | rd sel =>
    cases h : regOfSel sel with
    | none => exact ⟨_, by rw [after_rd_none h]; rfl⟩
    | some r => exact ⟨_, by rw [after_rd_some h]; rfl⟩
  | valCheck m r =>
    by_cases h : m = 0#16
    · subst h; exact ⟨_, rfl⟩
    · exact ⟨_, by rw [after_valCheck_pos h]; rfl⟩
  | _ => simp

/-- What is still to come has no influence on a command. -/
theorem after_withInbox (i : Instr) (s : State) (l : List HostInput) :
    after i { s with inbox := l } = { after i s with inbox := l } := by
  cases i with
  | rd sel =>
    cases h : regOfSel sel with
    | none => simp only [after_rd_none h]; rfl
    | some r => simp only [after_rd_some h]; rfl
  | valCheck m r =>
    by_cases h : m = 0#16
    · subst h; rfl
    · simp only [after_valCheck_pos h]; rfl
  | _ => rfl

/-- The responses so far have no influence on what a command does to the registers. -/
theorem after_regs_withRsps (i : Instr) (s : State) (l : List Response) :
    (after i { s with rsps := l }).regs = (after i s).regs := by
  cases i with
  | rd sel =>
    cases h : regOfSel sel with
    | none => simp only [after_rd_none h]; rfl
    | some r => simp only [after_rd_some h]; rfl
  | valCheck m r =>
    by_cases h : m = 0#16
    · subst h; rfl
    · simp only [after_valCheck_pos h]; rfl
  | _ => rfl

/-! ## Words -/

/-- The next state of a word. -/
def afterWord (w : Cmd) (s : State) : State :=
  match decode w with
  | .ok i => after i s
  | .error _ => s.raiseError .illegal

theorem afterWord_ok {w : Cmd} {i : Instr} (h : decode w = .ok i) (s : State) :
    afterWord w s = after i s := by
  simp [afterWord, h]

theorem afterWord_error {w : Cmd} {r : Reject} (h : decode w = .error r) (s : State) :
    afterWord w s = s.raiseError .illegal := by
  simp [afterWord, h]

/-- Every word answers a next state. -/
theorem runWord_eq_afterWord (w : Cmd) (s : State) : runWord w s = .next (afterWord w s) := by
  unfold runWord afterWord
  cases decode w with
  | ok i => exact exec_eq_after i s
  | error r => rfl

@[simp] theorem afterWord_inbox (w : Cmd) (s : State) : (afterWord w s).inbox = s.inbox := by
  unfold afterWord
  cases decode w <;> simp

theorem afterWord_rsps (w : Cmd) (s : State) : ∃ a, (afterWord w s).rsps = s.rsps ++ [a] := by
  unfold afterWord
  cases decode w with
  | ok i => exact after_rsps i s
  | error r => exact ⟨_, rfl⟩

theorem afterWord_withInbox (w : Cmd) (s : State) (l : List HostInput) :
    afterWord w { s with inbox := l } = { afterWord w s with inbox := l } := by
  unfold afterWord
  cases decode w with
  | ok i => exact after_withInbox i s l
  | error r => rfl

theorem afterWord_regs_withRsps (w : Cmd) (s : State) (l : List Response) :
    (afterWord w { s with rsps := l }).regs = (afterWord w s).regs := by
  unfold afterWord
  cases decode w with
  | ok i => exact after_regs_withRsps i s l
  | error r => rfl

/-! ## Steps -/

/-- What an input does to the state. -/
def afterInput (h : HostInput) (s : State) : State :=
  match h with
  | .command w => afterWord w s
  | .resetPin o => s.pinReset o

@[simp] theorem afterInput_command (w : Cmd) (s : State) : afterInput (.command w) s = afterWord w s := rfl
@[simp] theorem afterInput_resetPin (o : Option Cmd) (s : State) :
    afterInput (.resetPin o) s = s.pinReset o := rfl

@[simp] theorem afterInput_inbox (h : HostInput) (s : State) : (afterInput h s).inbox = s.inbox := by
  cases h <;> simp

theorem afterInput_withInbox (h : HostInput) (s : State) (l : List HostInput) :
    afterInput h { s with inbox := l } = { afterInput h s with inbox := l } := by
  cases h with
  | command w => exact afterWord_withInbox w s l
  | resetPin o => rfl

theorem step_nil {s : State} (h : s.inbox = []) : step s = .next s := by
  simp [step, State.takeInput, h]

/-- A step takes the next input and does what it says. -/
theorem step_cons {s : State} {h : HostInput} {rest : List HostInput} (hs : s.inbox = h :: rest) :
    step s = .next (afterInput h { s with inbox := rest }) := by
  cases h <;> simp [step, State.takeInput, hs, runWord_eq_afterWord]

/-- Issuing a word leaves the inbox as it was. -/
theorem issueWord_eq (w : Cmd) (s : State) : issueWord w s = .next (afterWord w s) := by
  unfold issueWord
  rw [step_cons (h := .command w) (rest := s.inbox) rfl]
  rfl

theorem issue_eq (i : Instr) (s : State) : issue i s = .next (afterWord (encode i) s) :=
  issueWord_eq _ s

/-- Issuing a command list is the fold of its words. -/
theorem issueAll_eq (cs : List Instr) (s : State) :
    issueAll cs s = .next (cs.foldl (fun t i => afterWord (encode i) t) s) := by
  induction cs generalizing s with
  | nil => rfl
  | cons i is ih => simp [issueAll, issue_eq, andThen, ih]

/-- A run is the fold of its inputs, and it empties the inbox. -/
theorem runInputs_eq (inputs : List HostInput) (s : State) :
    Safety.runInputs inputs s =
      .next { inputs.foldl (fun t h => afterInput h t) s with inbox := [] } := by
  unfold Safety.runInputs
  induction inputs generalizing s with
  | nil => rfl
  | cons h hs ih =>
    have h1 : core.step { s with inbox := h :: hs } = .next { afterInput h s with inbox := hs } := by
      show step _ = _
      rw [step_cons (h := h) (rest := hs) rfl]
      exact congrArg _ (afterInput_withInbox h s hs)
    simp only [List.length_cons, Host.Core.run, h1]
    exact ih (afterInput h s)

end Sys2Proof.Machine
end

