-- ==== Sys2Proof/Laws/PerInstr.lean ====
section
/-! SUPPORT. Per-instruction law EncodedFields: where the encoding tables (spec 30_encoding.md R50, R52, R54) put a
command's opcode and operands, read back from its word. -/

namespace Sys2Proof.Laws.EncodedFields

/-- The opcode of R52. -/
def opcode : Instr → Byte
  | .nop => 0x00
  | .rst => 0x01
  | .rd _ => 0x02
  | .prngSeed _ => 0x10
  | .prngNext => 0x11
  | .accInit _ => 0x20
  | .accByte _ => 0x21
  | .valLoad _ => 0x30
  | .valLdacc => 0x31
  | .valCheck _ _ => 0x32
  | .decKey _ => 0x40
  | .decKeyacc => 0x41
  | .decByte _ => 0x42

/-- The selector field: 0 but for RD (R53). -/
def selector : Instr → Byte
  | .rd sel => sel
  | _ => 0

/-- The argument field by operand class (R54 to R56). -/
def argument : Instr → Word
  | .prngSeed v => v
  | .accInit v => v
  | .accByte b => byteArg b
  | .valLoad v => v
  | .valCheck m r => pairArg m r
  | .decKey v => v
  | .decByte b => byteArg b
  | _ => 0

/-- The word of a command holds its opcode, selector and argument, and no reserved bit. -/
def Statement (i : Instr) : Prop :=
  opcOf (encode i) = opcode i ∧ selOf (encode i) = selector i ∧ rsvOf (encode i) = 0#16 ∧
    argOf (encode i) = argument i

theorem nop : Statement .nop := by simp [Statement, encode, opcode, selector, argument]
theorem rst : Statement .rst := by simp [Statement, encode, opcode, selector, argument]
theorem rd (sel : Byte) : Statement (.rd sel) := by simp [Statement, encode, opcode, selector, argument]
theorem prngSeed (seed : Word) : Statement (.prngSeed seed) := by
  simp [Statement, encode, opcode, selector, argument]
theorem prngNext : Statement .prngNext := by simp [Statement, encode, opcode, selector, argument]
theorem accInit (base : Word) : Statement (.accInit base) := by
  simp [Statement, encode, opcode, selector, argument]
theorem accByte (b : Byte) : Statement (.accByte b) := by
  simp [Statement, encode, opcode, selector, argument]
theorem valLoad (checksum : Word) : Statement (.valLoad checksum) := by
  simp [Statement, encode, opcode, selector, argument]
theorem valLdacc : Statement .valLdacc := by simp [Statement, encode, opcode, selector, argument]
theorem valCheck (modulus residue : Half) : Statement (.valCheck modulus residue) := by
  simp [Statement, encode, opcode, selector, argument]
theorem decKey (key : Word) : Statement (.decKey key) := by
  simp [Statement, encode, opcode, selector, argument]
theorem decKeyacc : Statement .decKeyacc := by simp [Statement, encode, opcode, selector, argument]
theorem decByte (b : Byte) : Statement (.decByte b) := by
  simp [Statement, encode, opcode, selector, argument]

end Sys2Proof.Laws.EncodedFields
end

