-- ==== Sys2Proof/Tests/Slice0.lean ====
section
/-! SUPPORT. The model's own tests: the checks of WellFormed and Config, a word of every command, the illegal words, one
step of every command, and for every statement with hypotheses a witness that meets them. Expected values are from
spec/95_test_vectors.md (V-…), or worked out by hand from the rule named. -/

namespace Sys2Proof.Tests

open Sys2Proof.Machine Sys2Proof.Safety

/-! ## Well-formedness -/

theorem test_rd_selector_ten_ill_formed : (Instr.rd 0x0A#8).wf = false := by decide
theorem test_rd_selector_max_ill_formed : (Instr.rd 0xFF#8).wf = false := by decide
theorem test_rd_selector_nine_well_formed : (Instr.rd 0x09#8).wf = true := by decide
theorem test_no_instances_ill_formed : (Config.Params.mk 0 1).wf = false := by decide
theorem test_no_latency_ill_formed : (Config.Params.mk 1 0).wf = false := by decide

/-! ## Decoding: one word of every command, written out from 30_encoding.md R50, R52, R54 -/

theorem test_decode_nop : decode 0x0000000000000000#64 = .ok .nop := by decide
theorem test_decode_rst : decode 0x0000000000000001#64 = .ok .rst := by decide
theorem test_decode_rd : decode 0x0000000000000902#64 = .ok (.rd 0x09#8) := by decide
theorem test_decode_prngSeed : decode 0xFFFFFFFF00000010#64 = .ok (.prngSeed 0xFFFFFFFF#32) := by decide
theorem test_decode_prngNext : decode 0x0000000000000011#64 = .ok .prngNext := by decide
theorem test_decode_accInit : decode 0x7FFFFFFF00000020#64 = .ok (.accInit 0x7FFFFFFF#32) := by decide
theorem test_decode_accByte : decode 0x000000FF00000021#64 = .ok (.accByte 0xFF#8) := by decide
theorem test_decode_valLoad : decode 0x8000203D00000030#64 = .ok (.valLoad 0x8000203D#32) := by decide
theorem test_decode_valLdacc : decode 0x0000000000000031#64 = .ok .valLdacc := by decide
theorem test_decode_valCheck : decode 0x005C007B00000032#64 = .ok (.valCheck 0x7B#16 0x5C#16) := by decide
theorem test_decode_valCheck_mod0 : decode 0xFFFF000000000032#64 = .ok (.valCheck 0#16 0xFFFF#16) := by decide
theorem test_decode_decKey : decode 0x1122334400000040#64 = .ok (.decKey 0x11223344#32) := by decide
theorem test_decode_decKeyacc : decode 0x0000000000000041#64 = .ok .decKeyacc := by decide
theorem test_decode_decByte : decode 0x0000004100000042#64 = .ok (.decByte 0x41#8) := by decide

/-! The illegal words of V-ERR-1. -/

theorem test_illegal_opcode :
    decode 0x0000000000000003#64 = .error .unassignedOpcode ∧
    decode 0x00000000000000FF#64 = .error .unassignedOpcode ∧
    decode 0x0000000000000012#64 = .error .unassignedOpcode := by decide
theorem test_illegal_rsv :
    decode 0x0000000000010011#64 = .error .rsvNotZero ∧
    decode 0x0000000000010032#64 = .error .rsvNotZero := by decide
theorem test_illegal_sel :
    decode 0x0000000000000111#64 = .error .selNotZero ∧
    decode 0x0000000000000110#64 = .error .selNotZero ∧
    decode 0x0000000000000A02#64 = .error .selOutOfRange := by decide
theorem test_illegal_arg :
    decode 0x0000000100000011#64 = .error .argNotZero ∧
    decode 0x0000000100000302#64 = .error .argNotZero ∧
    decode 0x0000010000000021#64 = .error .argNotZero ∧
    decode 0x8000000000000042#64 = .error .argNotZero ∧
    decode 0x0000000100000001#64 = .error .argNotZero := by decide

/-- 20_memory.md R43: least significant byte first. -/
theorem test_byte_order :
    decodeBytes [0x40#8, 0#8, 0#8, 0#8, 0x44#8, 0x33#8, 0x22#8, 0x11#8, 0x99#8] =
      .ok (.decKey 0x11223344#32, [0x99#8]) := by decide
theorem test_short_stream : decodeBytes [0#8, 0#8, 0#8, 0#8, 0#8, 0#8, 0#8] = .error .truncated := by decide

/-- 30_encoding.md R59: no word fits two rows of the opcode table. -/
theorem test_rows_disjoint :
    opTable.Pairwise fun r q => r.bits &&& (r.mask &&& q.mask) ≠ q.bits &&& (r.mask &&& q.mask) := by decide

/-! ## Assembler notation (30_encoding.md R62, R63) -/

theorem test_assemble_pairs :
    Assembler.assembleLine "VAL.SET (0x7b,0x5c), (0x1c8, 29)" =
      some [.valCheck 0x7B#16 0x5C#16, .valCheck 0x1C8#16 0x1D#16] := by decide
theorem test_assemble_string :
    Assembler.assembleLine "ACC.STR 5, \"h;\" ; text" =
      some [.accInit 5#32, .accByte 0x68#8, .accByte 0x3B#8] := by decide
/-- V-ACC-2: a byte of a string by its hexadecimal code. -/
theorem test_assemble_escape :
    Assembler.assembleLine "ACC.STR 0, \"\\xffe\"" = some [.accInit 0#32, .accByte 0xFF#8, .accByte 0x65#8] := by
  decide
/-- Log entry 8: a short escape refuses the line, with or without a comment. -/
theorem test_assemble_short_escape :
    Assembler.assembleLine "ACC.STR 0, \"\\x\"" = none ∧
    Assembler.assembleLine "ACC.STR 0, \"\\x\" ; text" = none := by decide
/-- Log entry 8: lists without an element. -/
theorem test_assemble_empty_lists :
    Assembler.assembleLine "VAL.SET" = none ∧ Assembler.assembleLine "DEC.STR 7" = some [.decKey 7#32] ∧
    Assembler.assembleLine "ACC.STR 7, \"\"" = some [.accInit 7#32] := by decide
theorem test_assemble_byte_out_of_range : Assembler.assembleLine "DEC.BYTE 256" = none := by decide

/-! ## One step of every command -/

/-- A state whose registers all differ from their reset values. -/
def marked : State where
  regs :=
    { state := 0x8000203D#32, pout := 0x1234#15, dcnt := 0xFFFFFFFF#32, acc := 0xFFFFFFFF#32, aidx := 1#32,
      key := 0x8000203D#32, lane := 3#2, dout := 0x55#8, vok := true, status := 3#32, vx := 0x8000203D#32 }
  inbox := []
  rsps := []

/-- The registers after an outcome. -/
def regsOf : Host.Outcome State Fault Refusal → Option Regs
  | .next t => some t.regs
  | .fault _ => none
  | .refused _ => none

/-- The responses after an outcome. -/
def rspsOf : Host.Outcome State Fault Refusal → Option (List Response)
  | .next t => some t.rsps
  | .fault _ => none
  | .refused _ => none

theorem test_nop :
    regsOf (exec .nop marked) = some marked.regs ∧ rspsOf (exec .nop marked) = some [⟨0#32, false⟩] := by decide
theorem test_rst :
    regsOf (exec .rst marked) = some Regs.reset ∧ rspsOf (exec .rst marked) = some [⟨0#32, false⟩] := by decide
/-- 44_control.md R112: bit 1 is ERR_MOD0, bit 0 is ERR_ILL. -/
theorem test_rd_status : rspsOf (exec (.rd 0x09#8) marked) = some [⟨3#32, false⟩] := by decide
theorem test_rd_pout : rspsOf (exec (.rd 0x01#8) marked) = some [⟨0x1234#32, false⟩] := by decide
/-- V-PRNG-5. -/
theorem test_prngSeed :
    (regsOf (exec (.prngSeed 7#32) marked)).map (fun r => (r.state, r.pout, r.dcnt)) =
      some (7#32, 0#15, 0#32) := by decide
/-- V-PRNG-1, draw 1; DCNT wraps (40_prng.md R72). -/
theorem test_prngNext :
    (regsOf (exec .prngNext marked)).map (fun r => (r.state, r.pout, r.dcnt)) =
      some (0xF60E8032#32, 0x760E#15, 0#32) := by decide
/-- V-PRNG-3, seed 0xFFFFFFFF. -/
theorem test_prngNext_wraps :
    rspsOf (exec .prngNext (marked.setPrng 0xFFFFFFFF#32 0#15 0#32)) = some [⟨0x3E39#32, false⟩] := by decide
theorem test_accInit :
    (regsOf (exec (.accInit 0x12345678#32) marked)).map (fun r => (r.acc, r.aidx)) =
      some (0x12345678#32, 0#32) := by decide
/-- V-ACC-3: ACC wraps to 0. -/
theorem test_accByte_wraps : rspsOf (exec (.accByte 1#8) marked) = some [⟨0#32, false⟩] := by decide
/-- 41_checksum.md R81: byte 0xFF at AIDX 0xFFFFFFFF adds 0xFFFFFF01 and leaves AIDX 0. -/
theorem test_accByte_index_wraps :
    (regsOf (exec (.accByte 0xFF#8) (marked.setAcc 0#32 0xFFFFFFFF#32))).map (fun r => (r.acc, r.aidx)) =
      some (0xFFFFFF01#32, 0#32) := by decide
theorem test_valLoad :
    (regsOf (exec (.valLoad 5#32) (marked.setVok false))).map (fun r => (r.vx, r.vok)) =
      some (5#32, true) := by decide
theorem test_valLdacc :
    (regsOf (exec .valLdacc (marked.setVok false))).map (fun r => (r.vx, r.vok)) =
      some (0xFFFFFFFF#32, true) := by decide
/-- V-VAL-1, row 2. -/
theorem test_valCheck :
    rspsOf (exec (.valCheck 0x7B#16 0x5C#16) marked) = some [⟨1#32, false⟩] := by decide
/-- V-VAL-4: modulus 0 is an error and clears VOK; an earlier ERR_ILL stays. -/
theorem test_valCheck_mod0 :
    (regsOf (exec (.valCheck 0#16 0#16) (State.reset.setVal 0#32 true))).map (fun r => (r.vok, r.status)) =
      some (false, 2#32) ∧
    rspsOf (exec (.valCheck 0#16 0#16) marked) = some [⟨2#32, true⟩] := by decide
/-- 43_decoder.md R100: DOUT is unchanged. -/
theorem test_decKey :
    (regsOf (exec (.decKey 9#32) marked)).map (fun r => (r.key, r.lane, r.dout)) =
      some (9#32, 0#2, 0x55#8) := by decide
theorem test_decKeyacc :
    (regsOf (exec .decKeyacc marked)).map (fun r => (r.key, r.lane, r.acc)) =
      some (0xFFFFFFFF#32, 0#2, 0xFFFFFFFF#32) := by decide
/-- V-DEC-1: lane 3 of key 0x8000203D is 0x80, and lane 0 follows. -/
theorem test_decByte :
    (regsOf (exec (.decByte 0#8) marked)).map (fun r => (r.dout, r.lane)) = some (0x80#8, 0#2) := by decide
/-- 43_decoder.md R102: lane 0. -/
theorem test_decByte_lane0 :
    rspsOf (exec (.decByte 0x41#8) (marked.setKey 0x8000203D#32 0#2)) = some [⟨0x7C#32, false⟩] := by decide

/-- An illegal word sets ERR_ILL and nothing else (V-ERR-1). -/
theorem test_illegal_step :
    regsOf (step (State.reset.present 0x0000000100000011#64)) = some { Regs.reset with status := 1#32 } ∧
    rspsOf (step (State.reset.present 0x0000000000010032#64)) = some [⟨1#32, true⟩] := by decide
/-- The word the host places is what the next step runs. -/
theorem test_withFetchWord :
    rspsOf (step (State.reset.withFetchWord 64 0x0000000000000011)) = some [⟨0#32, false⟩] ∧
    decodeTableWord 64 0x8000203D00000010 = some (.prngSeed 0x8000203D#32) ∧
    decodeTableWord 64 0x0000000000000A02 = none := by decide
theorem test_pin_reset :
    step { marked with inbox := [.resetPin (some 0x11#64)] } = .next State.reset := by rfl

/-! ## Witnesses: every statement with hypotheses has a case -/

theorem witness_DecodeOfEncode : ∃ i : Instr, i = .rd 0x09#8 ∧ i.wf = true := ⟨_, rfl, by decide⟩
theorem witness_EncodeOfDecode : decode 0xFFFF000000000032#64 = .ok (.valCheck 0#16 0xFFFF#16) := by decide

/-- A rejected word is a word no command decodes from. -/
theorem not_ok_of_error {w : Cmd} {r : Reject} (h : decode w = .error r) : ∀ i, decode w ≠ .ok i := by
  simp [h]

/-- One illegal word for each clause (a) to (e) of R58, at the edge of the clause. -/
theorem witness_IllegalWordsAreExactly :
    (∀ i, decode 0x0000000000000003#64 ≠ .ok i) ∧ (∀ i, decode 0x0000000000010000#64 ≠ .ok i) ∧
    (∀ i, decode 0x0000000000000110#64 ≠ .ok i) ∧ (∀ i, decode 0x0000000000000A02#64 ≠ .ok i) ∧
    (∀ i, decode 0x0000000100000011#64 ≠ .ok i) ∧ (∀ i, decode 0x0000010000000021#64 ≠ .ok i) :=
  ⟨not_ok_of_error (r := .unassignedOpcode) (by decide), not_ok_of_error (r := .rsvNotZero) (by decide),
    not_ok_of_error (r := .selNotZero) (by decide), not_ok_of_error (r := .selOutOfRange) (by decide),
    not_ok_of_error (r := .argNotZero) (by decide), not_ok_of_error (r := .argNotZero) (by decide)⟩

/-- A word that fits RD's row, and one that RD's selector rules out. -/
theorem witness_DecodeAgreesWithOpcodeTable :
    ∃ r ∈ opTable, r.fits 0x0000000000000902#64 = true ∧ r.fits 0x0000000000000A02#64 = false ∧ r.name = "RD" := by
  decide

/-- Both outcomes of decode, with bytes left over. -/
theorem witness_SerialisedWordsDecodeAlike :
    decode 0x1122334400000040#64 = .ok (.decKey 0x11223344#32) ∧
    decode 0x0000000000000A02#64 = .error .selOutOfRange := by decide

theorem witness_StepRunsDecodedCommand :
    (State.reset.present 0x11#64).inbox = .command 0x11#64 :: [] ∧ decode 0x11#64 = .ok .prngNext := by decide
theorem witness_IllegalWordOnlySetsErrIll :
    (State.reset.present 0x111#64).inbox = .command 0x111#64 :: [] ∧ ∀ i, decode 0x111#64 ≠ .ok i :=
  ⟨rfl, not_ok_of_error (r := .selNotZero) (by decide)⟩
theorem witness_IdleStepHoldsState : State.reset.inbox = [] := rfl
theorem witness_EveryWordCompletesWithOneResponse :
    (State.reset.present 0x10011#64).inbox = .command 0x10011#64 :: [] := rfl
/-- The three clauses: an illegal word with modulus 0, a legal one, and a command that raises nothing. -/
theorem witness_AtMostOneErrorLegalityFirst :
    (∀ i, decode 0x0000000000010032#64 ≠ .ok i) ∧
    decode 0xFFFF000000000032#64 = .ok (.valCheck 0#16 0xFFFF#16) ∧
    (decode 0x0000000100000032#64 = .ok (.valCheck 1#16 0#16) ∧
      (∀ r, Instr.valCheck 1#16 0#16 ≠ .valCheck 0#16 r) ∧ Instr.valCheck 1#16 0#16 ≠ .rst) :=
  ⟨not_ok_of_error (r := .rsvNotZero) (by decide), by decide, by decide, by simp, by decide⟩

/-- A word with this OPC whose masked bits are not the OPC with zeros: the hypotheses of otherWordsIllegal. -/
def otherWord (w : Cmd) (opc : Byte) (mask : Cmd) : Bool :=
  decide (w.extractLsb' 0 8 = opc) && decide (w &&& mask ≠ opc.setWidth 64)

/-- One such word for each command (V-ERR-1 among them). -/
theorem witness_otherWordsIllegal :
    otherWord 0x0000000000010000#64 0x00#8 0xFFFFFFFFFFFFFFFF#64 = true ∧
    otherWord 0x0000000100000001#64 0x01#8 0xFFFFFFFFFFFFFFFF#64 = true ∧
    otherWord 0x0000000100000302#64 0x02#8 0xFFFFFFFFFFFF00FF#64 = true ∧
    otherWord 0x0000000000000110#64 0x10#8 0x00000000FFFFFFFF#64 = true ∧
    otherWord 0x0000000100000011#64 0x11#8 0xFFFFFFFFFFFFFFFF#64 = true ∧
    otherWord 0x0000000000000120#64 0x20#8 0x00000000FFFFFFFF#64 = true ∧
    otherWord 0x0000010000000021#64 0x21#8 0xFFFFFF00FFFFFFFF#64 = true ∧
    otherWord 0x0000000080000030#64 0x30#8 0x00000000FFFFFFFF#64 = true ∧
    otherWord 0x0000000000000131#64 0x31#8 0xFFFFFFFFFFFFFFFF#64 = true ∧
    otherWord 0x0000000000010032#64 0x32#8 0x00000000FFFFFFFF#64 = true ∧
    otherWord 0x0000000000008040#64 0x40#8 0x00000000FFFFFFFF#64 = true ∧
    otherWord 0x8000000000000041#64 0x41#8 0xFFFFFFFFFFFFFFFF#64 = true ∧
    otherWord 0x8000000000000042#64 0x42#8 0xFFFFFF00FFFFFFFF#64 = true := by decide

theorem witness_RdReturnsSelectedRegister : 0x09#8 < 0x0A#8 ∧ 0x09#8 < 0xFF#8 := by decide
/-- The two cases of VAL.CHECK, at the smallest and the largest modulus. -/
theorem witness_ValCheckTestsPair : (0#16 : Half) = 0#16 ∧ (1#16 : Half) ≠ 0#16 ∧ (0xFFFF#16 : Half) ≠ 0#16 := by
  decide
/-- A state on each lane. -/
theorem witness_KeyBytesLeastSignificantFirst :
    (marked.setKey 1#32 0#2).regs.lane = 0#2 ∧ (marked.setKey 1#32 1#2).regs.lane = 1#2 ∧
    (marked.setKey 1#32 2#2).regs.lane = 2#2 ∧ (marked.setKey 1#32 3#2).regs.lane = 3#2 := by decide
/-- RD of STATUS meets the hypotheses of every clause of the frame at once. -/
theorem witness_RegistersWrittenOnlyByTheirCommands :
    exec (.rd 0x09#8) marked = .next (marked.respond 3#32 false) ∧ Instr.rd 0x09#8 ≠ .rst ∧
    (∀ v, Instr.rd 0x09#8 ≠ .prngSeed v) ∧ Instr.rd 0x09#8 ≠ .prngNext ∧
    (∀ v, Instr.rd 0x09#8 ≠ .accInit v) ∧ (∀ b, Instr.rd 0x09#8 ≠ .accByte b) ∧
    (∀ v, Instr.rd 0x09#8 ≠ .decKey v) ∧ Instr.rd 0x09#8 ≠ .decKeyacc ∧
    (∀ b, Instr.rd 0x09#8 ≠ .decByte b) ∧ (∀ v, Instr.rd 0x09#8 ≠ .valLoad v) ∧
    Instr.rd 0x09#8 ≠ .valLdacc ∧ (∀ m r, Instr.rd 0x09#8 ≠ .valCheck m r) ∧
    (Instr.rd 0x09#8).wf = true :=
  ⟨rfl, by decide, by simp, by decide, by simp, by simp, by simp, by decide, by simp, by simp, by decide, by simp,
    by decide⟩

/-- V-PRNG-4: draws with commands of other units between them, an ill-formed one too. -/
theorem witness_DrawsAreFunctionOfSeedAndCount :
    ∀ i ∈ [Instr.prngNext, .accInit 5#32, .accByte 9#8, .decKey 0x11223344#32, .rd 0xFF#8, .prngNext],
      restartsPrng i = false := by decide
/-- Checksum bytes with decoder commands between them (41_checksum.md R85). -/
theorem witness_ChecksumOfByteSequence :
    ∀ i ∈ [Instr.accByte 0x68#8, .decKeyacc, .decByte 1#8, .valLdacc, .accByte 0x65#8], restartsAcc i = false := by
  decide
/-- Checks with a modulus 0 among them; and V-VAL-2's other order, with a repetition. -/
theorem witness_VokIsConstraintSetVerdict :
    (∀ i ∈ [Instr.valCheck 0x7B#16 0x5C#16, .prngNext, .valCheck 0#16 0#16], restartsVal i = false) ∧
    (∀ p : Half × Half, p ∈ [(0x7B#16, 0x5C#16), (0x1C8#16, 0x1D#16)] ↔
      p ∈ [(0x1C8#16, 0x1D#16), (0x7B#16, 0x5C#16), (0x1C8#16, 0x1D#16)]) := by
  refine ⟨by decide, fun p => ?_⟩
  simp only [List.mem_cons, List.not_mem_nil, or_false]
  tauto
/-- Checks, an illegal VAL.LOAD and a pin reset, from VOK = 0; the modulus at its smallest. -/
theorem witness_ClearedVokStaysClear :
    State.reset.regs.vok = false ∧
    (∀ h ∈ [HostInput.command 0x0000000500000032#64, .command 0x0000000000000130#64, .resetPin none],
      opensSet h = false) ∧ (1#16 : Half) ≠ 0#16 := by decide
theorem witness_ResidueNotBelowModulusFails :
    1 ≤ (1#16 : Half).toNat ∧ (1#16 : Half).toNat ≤ (1#16 : Half).toNat ∧
    1 ≤ (0xFFFF#16 : Half).toNat ∧ (0xFFFF#16 : Half).toNat ≤ (0xFFFF#16 : Half).toNat := by decide
/-- Loads, copies of the hidden register's source, draws and a pin reset: everything but VAL.CHECK. -/
theorem witness_VxNeverReachesAnswers :
    ∀ h ∈ [HostInput.command 0x0000000500000030#64, .command 0x31#64, .command 0x11#64, .command 0x802#64,
      .resetPin (some 0x0000000500000032#64), .command 0x0000000000010032#64], isCheck h = false := by decide
/-- A pair that two checksums both satisfy, one that both fail, and modulus 0, where nothing is asked. -/
theorem witness_ValCheckLeaksOneBit :
    ((0x7B#16 : Half) ≠ 0#16 →
      (marked.regs.vx.toNat % (0x7B#16 : Half).toNat = (0x5C#16 : Half).toNat ↔
        (0x5C#32 : Word).toNat % (0x7B#16 : Half).toNat = (0x5C#16 : Half).toNat)) ∧
    ((1#16 : Half) ≠ 0#16 →
      (marked.regs.vx.toNat % (1#16 : Half).toNat = (1#16 : Half).toNat ↔
        (0#32 : Word).toNat % (1#16 : Half).toNat = (1#16 : Half).toNat)) ∧
    ¬ ((0#16 : Half) ≠ 0#16) := by decide
/-- Both key loads, with commands of other units among the bytes. -/
theorem witness_DecodedByteSequence :
    (Instr.decKeyacc = .decKey 0xFFFFFFFF#32 ∨ (Instr.decKeyacc = .decKeyacc ∧ marked.regs.acc = 0xFFFFFFFF#32)) ∧
    (Instr.decKey 9#32 = .decKey 9#32 ∨ (Instr.decKey 9#32 = .decKeyacc ∧ marked.regs.acc = 9#32)) ∧
    (∀ i ∈ [Instr.decByte 0x41#8, .accByte 0x7C#8, .rd 0x06#8, .decByte 0#8], restartsDec i = false) := by decide
/-- Both key loads, for the first pass and the second. -/
theorem witness_DecodingTwiceGivesBytesBack :
    (Instr.decKeyacc = .decKey 0xFFFFFFFF#32 ∨ (Instr.decKeyacc = .decKeyacc ∧ marked.regs.acc = 0xFFFFFFFF#32)) ∧
    (Instr.decKey 0xFFFFFFFF#32 = .decKey 0xFFFFFFFF#32 ∨
      (Instr.decKey 0xFFFFFFFF#32 = .decKeyacc ∧ marked.regs.acc = 0xFFFFFFFF#32)) := by decide
/-- A state that meets the invariant, with a draw made, and its step. -/
theorem witness_EveryStepKeepsInvariant :
    ∃ s t : State, s.regs.pout = 0x760E#15 ∧ Inv s ∧ step s = .next t := by
  refine ⟨{ regs := { marked.regs with state := 0xF60E8032#32, pout := 0x760E#15, dcnt := 1#32 },
            inbox := [.command 0x11#64], rsps := [] }, _, rfl, ⟨by decide, by decide⟩, rfl⟩

/-- Two instances, the second to move first. -/
def twoInstances : Platform := { insts := [marked, State.reset.present 0x11#64], order := [1, 0, 7] }

theorem witness_InstanceMovesAlone :
    twoInstances.order.head? ≠ some 0 ∧ twoInstances.insts[0]? = some marked := by decide
theorem witness_InterleavingShowsNothing :
    3 ≤ twoInstances.order.length ∧ twoInstances.insts[1]? = some (State.reset.present 0x11#64) := by decide

/-- Pins that present a word and keep reset released. -/
def pins (valid : Bool) : Port.Pins := { rstN := true, cmdValid := valid, cmdData := 0x11#64, rspReady := false }

theorem witness_ResponseAfterLatEdges :
    1 ≤ 2 ∧ (pins true).rstN = true ∧ (pins true).cmdValid = true ∧
    (∀ y ∈ [pins false, pins true], y.rstN = true) ∧ [pins false, pins true].length = 2 ∧
    Port.runEdges 2 ((pins true :: [pins false, pins true]).take 1) ⟨Regs.reset, .ready⟩ =
      ⟨Regs.reset, .busy 0x11#64 2⟩ := by decide
/-- A port that presents a response, and pins for each of the three cases. -/
theorem witness_PortHoldsResponseUntilTaken :
    (Port.PortState.mk Regs.reset (.responding 0#64 ⟨0#32, false⟩)).rsp = some ⟨0#32, false⟩ ∧
    ((pins true).rstN = true ∧ (pins true).rspReady = false) ∧
    ({ pins true with rspReady := true }.rstN = true ∧ { pins true with rspReady := true }.rspReady = true) ∧
    { pins true with rstN := false }.rstN = false := by decide

/-- V-ACC-1 and V-VAL-1: the secret "hello_world_42" passes; 42_validator.md R93: a modulus 0 rejects. -/
theorem witness_UnlockFlowVerdict :
    accepts (BitVec.ofNat 32 (compute [0x68#8, 0x65#8, 0x6C#8, 0x6C#8, 0x6F#8, 0x5F#8, 0x77#8, 0x6F#8, 0x72#8, 0x6C#8,
        0x64#8, 0x5F#8, 0x34#8, 0x32#8] 0x7FFFFFFF#32)) [(0x7B#16, 0x5C#16), (0x141#16, 0x128#16)] = true ∧
    accepts (BitVec.ofNat 32 (compute [] 0x7FFFFFFF#32)) [(0#16, 0#16)] = false := by decide
/-- V-PRNG-1, draws 1 to 4. -/
theorem witness_SeedSearchEnumeratesMatches :
    (∀ p ∈ ([(1, 0x0E#8), (4, 0xD3#8)] : Fingerprint), 1 ≤ p.1) ∧
    seqOut (seqState 0x8000203D 1) % 256 = 0x0E ∧ seqOut (seqState 0x8000203D 4) % 256 = 0xD3 := by decide

end Sys2Proof.Tests
end

/-! SUPPORT and PROOF. The column "written by" of 10_state.md R22, one lemma per unit, over the commands as Safety names
them; and the frame of every command but RST. -/

namespace Sys2Proof.Proofs

open Sys2Proof.Machine Sys2Proof.Safety

/-! ## The two commands whose next state depends on a test -/

/-- RD writes no register but STATUS, and STATUS only for an illegal selector (30_encoding.md R57). -/
@[simp] theorem after_rd_regs (sel : Byte) (s : State) :
    (after (.rd sel) s).regs =
      { s.regs with
        status := if (Instr.rd sel).wf then s.regs.status else setStatusBit .errIll s.regs.status } := by
  cases h : regOfSel sel with
  | none =>
    have hwf : (Instr.rd sel).wf = false := by simpa [Instr.wf] using (regOfSel_none_iff sel).1 h
    rw [after_rd_none h, hwf]
    rfl
  | some r =>
    have hwf : (Instr.rd sel).wf = true := by
      simpa [Instr.wf, h] using (regOfSel_none_iff sel).not
    rw [after_rd_some h, hwf]
    rfl

/-- VAL.CHECK writes VOK, and STATUS for a modulus 0 (42_validator.md R92, R93). -/
@[simp] theorem after_valCheck_regs (m r : Half) (s : State) :
    (after (.valCheck m r) s).regs =
      { s.regs with
        vok := if m = 0#16 then false else vokAfter s.regs.vok s.regs.vx m r
        status := if m = 0#16 then setStatusBit .errMod0 s.regs.status else s.regs.status } := by
  by_cases hm : m = 0#16
  · subst hm
    rfl
  · rw [after_valCheck_pos hm, if_neg hm, if_neg hm]
    rfl

/-! ## Which commands concern a unit -/

theorem restartsPrng_eq_false {i : Instr} :
    restartsPrng i = false ↔ i ≠ .rst ∧ ∀ v, i ≠ .prngSeed v := by
  unfold restartsPrng
  cases i <;> simp

theorem restartsAcc_eq_false {i : Instr} :
    restartsAcc i = false ↔ i ≠ .rst ∧ ∀ v, i ≠ .accInit v := by
  unfold restartsAcc
  cases i <;> simp

theorem restartsVal_eq_false {i : Instr} :
    restartsVal i = false ↔ i ≠ .rst ∧ (∀ v, i ≠ .valLoad v) ∧ i ≠ .valLdacc := by
  unfold restartsVal
  cases i <;> simp

theorem restartsDec_eq_false {i : Instr} :
    restartsDec i = false ↔ i ≠ .rst ∧ (∀ v, i ≠ .decKey v) ∧ i ≠ .decKeyacc := by
  unfold restartsDec
  cases i <;> simp

theorem accOperand_eq_none {i : Instr} : accOperand i = none ↔ ∀ b, i ≠ .accByte b := by
  cases i <;> simp [accOperand]

theorem decOperand_eq_none {i : Instr} : decOperand i = none ↔ ∀ b, i ≠ .decByte b := by
  cases i <;> simp [decOperand]

theorem checkOperand_eq_none {i : Instr} : checkOperand i = none ↔ ∀ m r, i ≠ .valCheck m r := by
  cases i <;> simp [checkOperand]

/-! ## The frame of each unit -/

/-- STATE, POUT and DCNT (10_state.md R23 to R25). -/
theorem after_prng_frame {i : Instr} (hrestart : restartsPrng i = false) (hnext : i ≠ .prngNext) (s : State) :
    (after i s).regs.state = s.regs.state ∧ (after i s).regs.pout = s.regs.pout ∧
      (after i s).regs.dcnt = s.regs.dcnt := by
  cases i with
  | prngNext => exact absurd rfl hnext
  | prngSeed _ | rst => exact nomatch hrestart
  | _ => simp

/-- ACC and AIDX (10_state.md R26, R27). -/
theorem after_acc_frame {i : Instr} (hrestart : restartsAcc i = false) (hbyte : accOperand i = none) (s : State) :
    (after i s).regs.acc = s.regs.acc ∧ (after i s).regs.aidx = s.regs.aidx := by
  cases i with
  | accByte b => simp [accOperand] at hbyte
  | accInit _ | rst => exact nomatch hrestart
  | _ => simp

/-- KEY, and LANE (10_state.md R30, R31). -/
theorem after_key_frame {i : Instr} (hrestart : restartsDec i = false) (s : State) :
    (after i s).regs.key = s.regs.key ∧ (decOperand i = none → (after i s).regs.lane = s.regs.lane) := by
  cases i with
  | decByte b => simp [decOperand]
  | decKey _ | decKeyacc | rst => exact nomatch hrestart
  | _ => simp

/-- DOUT, which the key loads keep (10_state.md R32). -/
theorem after_dout_frame {i : Instr} (hrst : i ≠ .rst) (hbyte : decOperand i = none) (s : State) :
    (after i s).regs.dout = s.regs.dout := by
  cases i with
  | decByte b => simp [decOperand] at hbyte
  | rst => exact absurd rfl hrst
  | _ => simp

/-- VX, and VOK (10_state.md R28, R29). -/
theorem after_val_frame {i : Instr} (hrestart : restartsVal i = false) (s : State) :
    (after i s).regs.vx = s.regs.vx ∧ (checkOperand i = none → (after i s).regs.vok = s.regs.vok) := by
  cases i with
  | valCheck m r => simp [checkOperand]
  | valLoad _ | valLdacc | rst => exact nomatch hrestart
  | _ => simp

/-- STATUS: a well-formed command sets a bit only as VAL.CHECK with modulus 0 (10_state.md R33). -/
theorem after_status_frame {i : Instr} (hrst : i ≠ .rst) (hwf : i.wf = true)
    (hzero : ∀ r, i ≠ .valCheck 0#16 r) (s : State) :
    (after i s).regs.status = s.regs.status := by
  cases i with
  | rd sel => simp [hwf]
  | valCheck m r =>
    have hm : m ≠ 0#16 := fun h => hzero r (by rw [h])
    simp [hm]
  | rst => exact absurd rfl hrst
  | _ => simp

/-- STATUS bits are sticky: a command but RST keeps the word or sets one live bit (60_exceptions.md R129). -/
theorem after_status_cases {i : Instr} (hrst : i ≠ .rst) (s : State) :
    (after i s).regs.status = s.regs.status ∨ ∃ b, (after i s).regs.status = setStatusBit b s.regs.status := by
  cases i with
  | rd sel =>
    rw [after_rd_regs]
    split
    · exact .inl rfl
    · exact .inr ⟨_, rfl⟩
  | valCheck m r =>
    rw [after_valCheck_regs]
    split
    · exact .inr ⟨_, rfl⟩
    · exact .inl rfl
  | rst => exact absurd rfl hrst
  | _ => exact .inl rfl

/-- The next state of a command is `after`. -/
theorem exec_next_iff {i : Instr} {s t : State} : exec i s = .next t ↔ t = after i s := by
  rw [exec_eq_after, Host.Outcome.next.injEq, eq_comm]

/-- Settles O29, from the frame of each unit. -/
theorem registersWrittenOnlyByTheirCommands : Obligations.RegistersWrittenOnlyByTheirCommands := by
  intro i s t hexec hrst
  obtain rfl := exec_next_iff.1 hexec
  refine ⟨fun hseed hnext => ?prng, fun hinit hbyte => ?acc, fun hkey hkeyacc => ?key, fun hbyte => ?dout,
    fun hload hldacc => ?val, fun hwf hzero => ?status, after_inbox i s, after_rsps i s⟩
  case prng => exact after_prng_frame (restartsPrng_eq_false.2 ⟨hrst, hseed⟩) hnext s
  case acc => exact after_acc_frame (restartsAcc_eq_false.2 ⟨hrst, hinit⟩) (accOperand_eq_none.2 hbyte) s
  case key =>
    simpa only [decOperand_eq_none] using after_key_frame (restartsDec_eq_false.2 ⟨hrst, hkey, hkeyacc⟩) s
  case dout => exact after_dout_frame hrst (decOperand_eq_none.2 hbyte) s
  case val =>
    simpa only [checkOperand_eq_none] using after_val_frame (restartsVal_eq_false.2 ⟨hrst, hload, hldacc⟩) s
  case status => exact after_status_frame hrst hwf hzero s

end Sys2Proof.Proofs

/-! PROOF. Every step keeps Inv: the reserved bits of STATUS stay 0, and POUT stays the draw of STATE. -/

namespace Sys2Proof.Proofs

open Sys2Proof.Machine Sys2Proof.Safety

/-- The draw as a field of the word is the source's `rand()` on numbers (40_prng.md R72, 10_state.md R24). -/
theorem drawOf_toNat (x : Word) : (drawOf x).toNat = seqOut x.toNat := by
  simp [drawOf, seqOut, BitVec.extractLsb'_toNat, Nat.shiftRight_eq_div_pow]

/-- The live bits lie below the reserved ones. -/
theorem statusReservedZero_setStatusBit (b : StatusBit) {st : Word} (h : statusReservedZero st = true) :
    statusReservedZero (setStatusBit b st) = true := by
  have hbit : (1#32 <<< b.pos).extractLsb' 2 30 = 0#30 := by cases b <;> decide
  simp only [statusReservedZero, decide_eq_true_eq] at h ⊢
  rw [setStatusBit, BitVec.extractLsb'_or, h, hbit]
  rfl

/-- Inv speaks of STATUS and the PRNG unit only. -/
theorem inv_of_frame {s t : State} (hs : Safety.Inv s) (hstatus : statusReservedZero t.regs.status = true)
    (hprng : t.regs.state = s.regs.state ∧ t.regs.pout = s.regs.pout ∧ t.regs.dcnt = s.regs.dcnt) :
    Safety.Inv t := by
  obtain ⟨hstate, hpout, hdcnt⟩ := hprng
  refine ⟨hstatus, ?_⟩
  rw [hstate, hpout, hdcnt]
  exact hs.2

/-- The reset values meet the invariant (70_reset_and_hazards.md R141). -/
theorem inv_of_regs_reset {s : State} (h : s.regs = Regs.reset) : Safety.Inv s := by
  rw [Safety.Inv, h]
  decide

theorem inv_raiseError (c : ErrorCause) {s : State} (hs : Safety.Inv s) : Safety.Inv (s.raiseError c) :=
  inv_of_frame hs (statusReservedZero_setStatusBit c.bit hs.1) ⟨rfl, rfl, rfl⟩

/-- Every command keeps the reserved bits of STATUS at 0. -/
theorem after_statusReservedZero (i : Instr) {s : State} (h : statusReservedZero s.regs.status = true) :
    statusReservedZero (after i s).regs.status = true := by
  by_cases hrst : i = .rst
  · subst hrst
    exact (inv_of_regs_reset rfl).1
  rcases after_status_cases hrst s with hkept | ⟨b, hset⟩
  · rwa [hkept]
  · rw [hset]
    exact statusReservedZero_setStatusBit b h

theorem inv_after (i : Instr) {s : State} (hs : Safety.Inv s) : Safety.Inv (after i s) := by
  have hstatus := after_statusReservedZero i hs.1
  cases i with
  | rst => exact inv_of_regs_reset rfl
  | prngSeed seed => exact ⟨hstatus, .inr ⟨rfl, rfl⟩⟩
  | prngNext => exact ⟨hstatus, .inl (drawOf_toNat _)⟩
  | _ =>
    refine inv_of_frame hs hstatus (after_prng_frame ?_ ?_ s)
    · rfl
    · simp

theorem inv_afterWord (w : Cmd) {s : State} (hs : Safety.Inv s) : Safety.Inv (afterWord w s) := by
  cases h : decode w with
  | ok i => exact afterWord_ok h s ▸ inv_after i hs
  | error r => exact afterWord_error h s ▸ inv_raiseError .illegal hs

theorem inv_afterInput (h : HostInput) {s : State} (hs : Safety.Inv s) : Safety.Inv (afterInput h s) := by
  cases h with
  | command w => exact inv_afterWord w hs
  | resetPin o => exact inv_of_regs_reset (s.pinReset_regs o)

/-- Settles O48: the idle step holds the state, and every input keeps the invariant. -/
theorem everyStepKeepsInvariant : Obligations.EveryStepKeepsInvariant := by
  intro s t hs hstep
  cases hin : s.inbox with
  | nil =>
    rw [step_nil hin] at hstep
    obtain rfl := Host.Outcome.next.inj hstep
    exact hs
  | cons h rest =>
    rw [step_cons hin] at hstep
    obtain rfl := Host.Outcome.next.inj hstep
    exact inv_afterInput h (s := { s with inbox := rest }) hs

end Sys2Proof.Proofs

/-! PROOF. VX is hidden: no input but VAL.CHECK looks at it, and VAL.CHECK shows one bit of it (10_state.md R28,
42_validator.md R95). -/

namespace Sys2Proof.Proofs

open Sys2Proof.Machine Sys2Proof.Safety

/-- RD cannot select VX. -/
theorem readReg_withVx (r : RdReg) (s : State) (x : Word) :
    readReg r (withVx s x).regs = readReg r s.regs := by
  cases r <;> rfl

/-- A command but VAL.CHECK, from states that differ in VX alone, ends in states that differ in VX at most: the
validator's loads and RST write it from elsewhere, the others keep it. -/
theorem after_withVx {i : Instr} (hcheck : checkOperand i = none) (s : State) (x : Word) :
    ∃ y, after i (withVx s x) = withVx (after i s) y := by
  cases i with
  | rd sel =>
    refine ⟨x, ?_⟩
    cases h : regOfSel sel with
    | none => simp only [after_rd_none h]; rfl
    | some r => simp only [after_rd_some h, readReg_withVx]; rfl
  | valCheck m r => simp [checkOperand] at hcheck
  | valLoad v => exact ⟨v, rfl⟩
  | valLdacc => exact ⟨s.regs.acc, rfl⟩
  | rst => exact ⟨Regs.reset.vx, rfl⟩
  | _ => exact ⟨x, rfl⟩

theorem afterInput_withVx {h : HostInput} (hcheck : isCheck h = false) (s : State) (x : Word) :
    ∃ y, afterInput h (withVx s x) = withVx (afterInput h s) y := by
  cases h with
  | resetPin o => exact ⟨Regs.reset.vx, rfl⟩
  | command w =>
    cases hw : decode w with
    | error r => exact ⟨x, by simp only [afterInput_command, afterWord_error hw]; rfl⟩
    | ok i =>
      have hi : checkOperand i = none := by simpa [isCheck, hw] using hcheck
      simpa only [afterInput_command, afterWord_ok hw] using after_withVx hi s x

/-- The two runs side by side: states that differ in VX at most stay so. -/
theorem foldl_afterInput_withVx {inputs : List HostInput} (hcheck : ∀ h ∈ inputs, isCheck h = false)
    (s : State) (x : Word) :
    ∃ y, inputs.foldl (fun t h => afterInput h t) (withVx s x) =
      withVx (inputs.foldl (fun t h => afterInput h t) s) y := by
  induction inputs generalizing s x with
  | nil => exact ⟨x, rfl⟩
  | cons h hs ih =>
    obtain ⟨hhead, htail⟩ := List.forall_mem_cons.1 hcheck
    obtain ⟨y, hy⟩ := afterInput_withVx hhead s x
    simpa only [List.foldl_cons, hy] using ih htail (afterInput h s) y

/-- Settles O40, by the two runs side by side. -/
theorem vxNeverReachesAnswers : Obligations.VxNeverReachesAnswers := by
  intro inputs s x hcheck
  obtain ⟨y, hy⟩ := foldl_afterInput_withVx hcheck s x
  refine ⟨_, _, runInputs_eq inputs s, runInputs_eq inputs (withVx s x), ?_, ?_⟩ <;> rw [hy] <;> rfl

/-- A pair is satisfied on words as on numbers (42_validator.md R92). -/
theorem pairOk_iff (x : Word) (m r : Half) : pairOk x m r = true ↔ x.toNat % m.toNat = r.toNat := by
  rw [pairOk, decide_eq_true_iff, ← BitVec.toNat_inj, BitVec.toNat_umod,
    BitVec.toNat_setWidth_of_le (by decide), BitVec.toNat_setWidth_of_le (by decide)]

/-- Settles O41: modulus 0 does not look at VX, and any other modulus only through the satisfied bit. -/
theorem valCheckLeaksOneBit : Obligations.ValCheckLeaksOneBit := by
  intro m r s x hsame
  refine ⟨_, exec_eq_after _ s, ?_⟩
  rw [exec_eq_after]
  by_cases hm : m = 0#16
  · subst hm; rfl
  · have hpair : pairOk x m r = pairOk s.regs.vx m r := by
      rw [Bool.eq_iff_iff, pairOk_iff, pairOk_iff]
      exact (hsame hm).symm
    have hvok : vokAfter s.regs.vok x m r = vokAfter s.regs.vok s.regs.vx m r := by
      rw [vokAfter, vokAfter, hpair]
    have hleft : after (.valCheck m r) (withVx s x) = ((withVx s x).setVok (vokAfter s.regs.vok x m r)).respond
        (zext (BitVec.ofBool (vokAfter s.regs.vok x m r))) false := after_valCheck_pos hm r _
    rw [hleft, hvok, after_valCheck_pos hm]
    rfl

end Sys2Proof.Proofs

/-! PROOF. One move of a platform, by the three cases of the order's head (10_state.md R36). -/

namespace Sys2Proof.Proofs

open Sys2Proof.Machine Sys2Proof.Safety

/-- No step stops. -/
theorem step_eq_next (s : State) : ∃ t, step s = .next t := by
  cases h : s.inbox with
  | nil => exact ⟨_, step_nil h⟩
  | cons => exact ⟨_, step_cons h⟩

section Moves

variable {p : Platform} {j : Nat} {rest : List Nat}

theorem platformStep_done (h : p.order = []) : p.step = .next p := by
  simp [Platform.step, h]

theorem platformStep_absent (h : p.order = j :: rest) (hj : p.insts[j]? = none) :
    p.step = .next { p with order := rest } := by
  simp [Platform.step, h, hj]

theorem platformStep_move {s t : State} (h : p.order = j :: rest) (hj : p.insts[j]? = some s)
    (ht : step s = .next t) : p.step = .next { insts := p.insts.set j t, order := rest } := by
  simp [Platform.step, h, hj, ht]

end Moves

/-- Settles O50: a move replaces one element of the list, the one named, or none. -/
theorem instanceMovesAlone : Obligations.InstanceMovesAlone := by
  intro p
  cases ho : p.order with
  | nil => exact ⟨p, platformStep_done ho, by simp [ho], rfl, fun _ _ => rfl⟩
  | cons j rest =>
    cases hj : p.insts[j]? with
    | none => exact ⟨_, platformStep_absent ho hj, rfl, rfl, fun _ _ => rfl⟩
    | some s =>
      obtain ⟨t, ht⟩ := step_eq_next s
      refine ⟨_, platformStep_move ho hj ht, rfl, List.length_set, fun k hk => ?_⟩
      exact List.getElem?_set_ne fun h => hk (congrArg some h)

end Sys2Proof.Proofs

/-! PROOF. A run of a platform, by its moves: each is a step of the instance it names and holds every other
(20_memory.md R49). -/

namespace Sys2Proof.Proofs

open Sys2Proof.Machine

/-- A run of one machine takes its first step first. -/
theorem coreRun_succ {s t : State} (h : step s = .next t) (k : Nat) :
    Host.Core.run core (k + 1) s = Host.Core.run core k t := by
  have hcore : core.step s = .next t := h
  simp only [Host.Core.run, hcore]

section Runs

variable {p q : Platform} {j : Nat} {rest : List Nat} {s : State}

/-- A run of a platform makes its first move first. -/
theorem platformRun_succ (h : p.step = .next q) (n : Nat) : Platform.run (n + 1) p = Platform.run n q := by
  simp only [Platform.run, h]

/-- A move of an instance the platform has is that instance's own step. -/
theorem platformStep_named (ho : p.order = j :: rest) (hj : p.insts[j]? = some s) :
    ∃ (q : Platform) (t : State),
      p.step = .next q ∧ q.order = rest ∧ step s = .next t ∧ q.insts[j]? = some t := by
  obtain ⟨t, ht⟩ := step_eq_next s
  obtain ⟨hlt, -⟩ := List.getElem?_eq_some_iff.1 hj
  exact ⟨_, t, platformStep_move ho hj ht, rfl, ht, List.getElem?_set_self hlt⟩

/-- A move of another instance, or of none, holds this one. -/
theorem platformStep_other {i : Nat} (ho : p.order = i :: rest) (hij : i ≠ j) (hj : p.insts[j]? = some s) :
    ∃ q : Platform, p.step = .next q ∧ q.order = rest ∧ q.insts[j]? = some s := by
  obtain ⟨q, hstep, horder, -, hframe⟩ := instanceMovesAlone p
  refine ⟨q, hstep, by rw [horder, ho, List.tail_cons], (hframe j ?_).trans hj⟩
  simpa [ho] using hij

end Runs

/-- Settles O51, by induction on the moves: one that names the instance is one step of its own machine's run, and any
other move holds the instance. -/
theorem interleavingShowsNothing : Obligations.InterleavingShowsNothing := by
  intro p n
  induction n generalizing p with
  | zero => exact fun j s _ hj => ⟨p, s, rfl, hj, rfl⟩
  | succ n ih =>
    intro j s hn hj
    cases ho : p.order with
    | nil => simp [ho] at hn
    | cons i rest =>
      have hrest : n ≤ rest.length := by simpa [ho] using hn
      rw [List.take_succ_cons]
      by_cases hij : i = j
      · subst hij
        obtain ⟨p', s', hmove, rfl, hstep, hs'⟩ := platformStep_named ho hj
        obtain ⟨q, t, hq, ht, halone⟩ := ih p' i s' hrest hs'
        rw [List.count_cons_self]
        exact ⟨q, t, (platformRun_succ hmove n).trans hq, ht, (coreRun_succ hstep _).trans halone⟩
      · obtain ⟨p', hmove, rfl, hs'⟩ := platformStep_other ho hij hj
        obtain ⟨q, t, hq, ht, halone⟩ := ih p' j s hrest hs'
        rw [List.count_cons_of_ne hij]
        exact ⟨q, t, (platformRun_succ hmove n).trans hq, ht, halone⟩

end Sys2Proof.Proofs

/-! PROOF. The memory image of commands and of the key: the bytes of a word, the one response of each word, and the
key byte of each lane (20_memory.md R42, R43, R46, R48). -/

namespace Sys2Proof.Proofs

open Sys2Proof.Machine

/-- Byte k of a word is its bits 8k+7 to 8k (R43). -/
theorem wordBytes_getElem? (w : Cmd) {k : Nat} (hk : k < 8) :
    (wordBytes w)[k]? = some (w.extractLsb' (8 * k) 8) := by
  interval_cases k <;> rfl

/-- The bytes of a word decode to what the word does, with the rest of the stream left over (R43, R60). -/
theorem decodeBytes_wordBytes (w : Cmd) (rest : List Byte) :
    decodeBytes (wordBytes w ++ rest) = (decode w).map fun i => (i, rest) := by
  simp only [wordBytes, List.cons_append, List.nil_append, decodeBytes, joinBytes_wordBytes]
  cases decode w <;> rfl

/-- Settles O6: the bytes join to the word again. -/
theorem serialisedWordsDecodeAlike : Obligations.SerialisedWordsDecodeAlike := by
  intro w rest
  refine ⟨rfl, fun k hk => wordBytes_getElem? w hk, fun i h => ?legal, fun r h => ?illegal⟩
  case legal => rw [decodeBytes_wordBytes, h]; rfl
  case illegal => rw [decodeBytes_wordBytes, h]; rfl

/-- Settles O13: the step takes the word, and the word's next state keeps what is left of the inbox and appends one
response. -/
theorem everyWordCompletesWithOneResponse : Obligations.EveryWordCompletesWithOneResponse := by
  intro s w rest hinbox
  obtain ⟨a, ha⟩ := afterWord_rsps w { s with inbox := rest }
  exact ⟨_, a, step_cons hinbox, afterWord_inbox w _, ha⟩

/-- The key byte of a lane is eight bits of the key, lane 0 the lowest (R42). -/
theorem keyByte_eq_extractLsb' (key : Word) (lane : BitVec 2) :
    keyByte key lane = key.extractLsb' (lane.toNat * 8) 8 :=
  BitVec.setWidth_ushiftRight_eq_extractLsb

/-- DEC.BYTE decodes with the key byte of the lane (43_decoder.md R102). -/
theorem exec_decByte_dout (b : Byte) (s : State) :
    ∃ t, exec (.decByte b) s = .next t ∧ t.regs.dout = b ^^^ s.regs.key.extractLsb' (s.regs.lane.toNat * 8) 8 :=
  ⟨_, exec_eq_after _ s, by rw [← keyByte_eq_extractLsb']; rfl⟩

/-- Settles O28: the key byte of the lane, on each of the four lanes. -/
theorem keyBytesLeastSignificantFirst : Obligations.KeyBytesLeastSignificantFirst := by
  intro s
  refine ⟨?_, ?_, ?_, ?_⟩ <;> intro hlane b <;> simpa [hlane] using exec_decByte_dout b s

end Sys2Proof.Proofs

/-! PROOF. Words and commands: each opcode reads the word by its operand class, and a command is read from exactly one
word, its encoding (30_encoding.md R54, R58, R59, R61). -/

namespace Sys2Proof.Proofs

open Sys2Proof.Machine Sys2Proof.Safety

/-! ## The operand class of an opcode -/

/-- The opcodes of R52. -/
def assignedOpcs : List Byte :=
  [0x00#8, 0x01#8, 0x02#8, 0x10#8, 0x11#8, 0x20#8, 0x21#8, 0x30#8, 0x31#8, 0x32#8, 0x40#8, 0x41#8, 0x42#8]

/-- How the decode function reads a word, by the operand class its opcode has (R52, R54). The classes with several
opcodes name the command, and say that its encoding puts the operand back under this opcode. -/
inductive ReadAs (w : Cmd) : Prop where
  | none (i : Instr)
      (hopc : opcOf w = 0x00#8 ∨ opcOf w = 0x01#8 ∨ opcOf w = 0x11#8 ∨ opcOf w = 0x31#8 ∨ opcOf w = 0x41#8)
      (hd : decodeOpc w = takeNone i w) (hwf : i.wf = true) (henc : encode i = cmdWord (opcOf w) 0#8 0#32)
  | sel (hopc : opcOf w = 0x02#8) (hd : decodeOpc w = takeSel .rd w)
  | word (k : Word → Instr)
      (hopc : opcOf w = 0x10#8 ∨ opcOf w = 0x20#8 ∨ opcOf w = 0x30#8 ∨ opcOf w = 0x40#8)
      (hd : decodeOpc w = takeWord k w)
      (hwf : ∀ v, (k v).wf = true) (henc : ∀ v, encode (k v) = cmdWord (opcOf w) 0#8 v)
  | byte (k : Byte → Instr) (hopc : opcOf w = 0x21#8 ∨ opcOf w = 0x42#8)
      (hd : decodeOpc w = takeByte k w)
      (hwf : ∀ b, (k b).wf = true) (henc : ∀ b, encode (k b) = cmdWord (opcOf w) 0#8 (byteArg b))
  | pair (hopc : opcOf w = 0x32#8) (hd : decodeOpc w = takePair .valCheck w)
  | unassigned (hopc : opcOf w ∉ assignedOpcs) (hd : decodeOpc w = .error .unassignedOpcode)

theorem readAs (w : Cmd) : ReadAs w := by
  obtain ⟨ho, hd⟩ | ⟨ho, hd⟩ | ⟨ho, hd⟩ | ⟨ho, hd⟩ | ⟨ho, hd⟩ | ⟨ho, hd⟩ | ⟨ho, hd⟩ | ⟨ho, hd⟩ | ⟨ho, hd⟩ |
    ⟨ho, hd⟩ | ⟨ho, hd⟩ | ⟨ho, hd⟩ | ⟨ho, hd⟩ | ⟨ho, hd⟩ := decodeOpc_cases w
  · exact .none .nop (by simp [ho]) hd rfl (by rw [ho]; rfl)
  · exact .none .rst (by simp [ho]) hd rfl (by rw [ho]; rfl)
  · exact .sel ho hd
  · exact .word .prngSeed (by simp [ho]) hd (fun _ => rfl) (fun _ => by rw [ho]; rfl)
  · exact .none .prngNext (by simp [ho]) hd rfl (by rw [ho]; rfl)
  · exact .word .accInit (by simp [ho]) hd (fun _ => rfl) (fun _ => by rw [ho]; rfl)
  · exact .byte .accByte (by simp [ho]) hd (fun _ => rfl) (fun _ => by rw [ho]; rfl)
  · exact .word .valLoad (by simp [ho]) hd (fun _ => rfl) (fun _ => by rw [ho]; rfl)
  · exact .none .valLdacc (by simp [ho]) hd rfl (by rw [ho]; rfl)
  · exact .pair ho hd
  · exact .word .decKey (by simp [ho]) hd (fun _ => rfl) (fun _ => by rw [ho]; rfl)
  · exact .none .decKeyacc (by simp [ho]) hd rfl (by rw [ho]; rfl)
  · exact .byte .decByte (by simp [ho]) hd (fun _ => rfl) (fun _ => by rw [ho]; rfl)
  · exact .unassigned ho hd

/-! ## The two round trips -/

/-- A word without reserved bits is the word of its opcode and of what its selector and argument hold. -/
theorem cmdWord_of_fields {w : Cmd} {opc sel : Byte} {arg : Word} (hrsv : rsvOf w = 0#16) (hopc : opcOf w = opc)
    (hsel : selOf w = sel) (harg : argOf w = arg) : cmdWord opc sel arg = w := by
  rw [← hopc, ← hsel, ← harg, cmdWord_fields hrsv]

/-- Settles O2, by operand class: a class accepts the word of the operand it takes, and no other. -/
theorem encodeOfDecode : Obligations.EncodeOfDecode := by
  intro w i h
  obtain ⟨hrsv, h⟩ := decode_ok.1 h
  cases readAs w with
  | none j _ hd hwf henc =>
    obtain ⟨hsel, harg, rfl⟩ := takeNone_ok.1 (hd ▸ h)
    exact ⟨henc.trans (cmdWord_of_fields hrsv rfl hsel harg), hwf⟩
  | sel hopc hd =>
    obtain ⟨hle, harg, rfl⟩ := takeSel_ok.1 (hd ▸ h)
    exact ⟨cmdWord_of_fields hrsv hopc rfl harg, decide_eq_true hle⟩
  | word k _ hd hwf henc =>
    obtain ⟨hsel, rfl⟩ := takeWord_ok.1 (hd ▸ h)
    exact ⟨(henc _).trans (cmdWord_of_fields hrsv rfl hsel rfl), hwf _⟩
  | byte k _ hd hwf henc =>
    obtain ⟨hsel, habove, rfl⟩ := takeByte_ok.1 (hd ▸ h)
    exact ⟨(henc _).trans (cmdWord_of_fields hrsv rfl hsel (byteArg_argByte habove).symm), hwf _⟩
  | pair hopc hd =>
    obtain ⟨hsel, rfl⟩ := takePair_ok.1 (hd ▸ h)
    exact ⟨cmdWord_of_fields hrsv hopc hsel (pairArg_fields _).symm, rfl⟩
  | unassigned _ hd => exact nomatch hd ▸ h

/-- Settles O1, by operand class: the opcode selects the command's case, and the class takes the operand put in. -/
theorem decodeOfEncode : Obligations.DecodeOfEncode := by
  intro i hwf
  cases i with
  | nop | rst | prngNext | valLdacc | decKeyacc => simp [encode, decode_ok, decodeOpc, takeNone_ok]
  | rd sel =>
    have hsel : sel ≤ maxSel := of_decide_eq_true hwf
    simp [encode, decode_ok, decodeOpc, takeSel_ok, hsel]
  | prngSeed v | accInit v | valLoad v | decKey v => simp [encode, decode_ok, decodeOpc, takeWord_ok]
  | accByte b | decByte b => simp [encode, decode_ok, decodeOpc, takeByte_ok]
  | valCheck m r => simp [encode, decode_ok, decodeOpc, takePair_ok]

/-- A legal word is the encoding of the well-formed command it decodes to (R59, R61). -/
theorem decode_ok_iff_encode {w : Cmd} {i : Instr} : decode w = .ok i ↔ i.wf = true ∧ encode i = w := by
  constructor
  · intro h
    exact (encodeOfDecode w i h).symm
  · rintro ⟨hwf, rfl⟩
    exact decodeOfEncode i hwf

/-- Settles O5: each word is the encoding of its command. -/
theorem specWordsDecode : Obligations.SpecWordsDecode := by
  simp only [Obligations.SpecWordsDecode, decode_ok_iff_encode]
  decide

/-! ## The illegal words -/

theorem decode_rejects_iff (w : Cmd) :
    (∀ i, decode w ≠ .ok i) ↔ rsvOf w ≠ 0#16 ∨ ∀ i, decodeOpc w ≠ .ok i := by
  simp only [ne_eq, decode_ok, not_and]
  by_cases h : rsvOf w = 0#16 <;> simp [h]

/-- The clauses of R58 but (b), by operand class. -/
theorem decodeOpc_rejects_iff (w : Cmd) :
    (∀ i, decodeOpc w ≠ .ok i) ↔
      opcOf w ∉ assignedOpcs
        ∨ (selOf w ≠ 0#8 ∧ opcOf w ≠ 0x02#8)
        ∨ (opcOf w = 0x02#8 ∧ maxSel < selOf w)
        ∨ (opcOf w ∈ [0x00#8, 0x01#8, 0x02#8, 0x11#8, 0x31#8, 0x41#8] ∧ argOf w ≠ 0#32)
        ∨ (opcOf w ∈ [0x21#8, 0x42#8] ∧ argAboveByte (argOf w) ≠ 0#24) := by
  cases readAs w with
  | none i hopc hd =>
    rw [hd, takeNone_not_ok]
    obtain h | h | h | h | h := hopc <;> simp [h, assignedOpcs]
  | sel hopc hd => simp [hd, takeSel_not_ok, hopc, assignedOpcs]
  | word k hopc hd =>
    rw [hd, takeWord_not_ok]
    obtain h | h | h | h := hopc <;> simp [h, assignedOpcs]
  | byte k hopc hd =>
    rw [hd, takeByte_not_ok]
    obtain h | h := hopc <;> simp [h, assignedOpcs]
  | pair hopc hd => simp [hd, takePair_not_ok, hopc, assignedOpcs]
  | unassigned hopc hd => simp [hd, hopc]

/-- An illegal word does what R123 of 60_exceptions.md says. -/
theorem issueWord_illegal {w : Cmd} (h : ∀ i, decode w ≠ .ok i) (s : State) :
    issueWord w s = .next (afterIllegal s) := by
  obtain ⟨r, hr⟩ := decode_not_ok.1 h
  rw [issueWord_eq, afterWord_error hr]
  rfl

/-- Settles O3, from the clauses by operand class: a reserved bit is clause (b), the other clauses are the class's. -/
theorem illegalWordsAreExactly : Obligations.IllegalWordsAreExactly := by
  intro w s
  refine ⟨?_, fun h => issueWord_illegal h s⟩
  rw [decode_rejects_iff, decodeOpc_rejects_iff, argAboveByte_argOf]
  exact or_left_comm

/-! ## The opcode table -/

/-- The bits a command's operand class fixes (R54). -/
def classMask : Instr → Cmd
  | .nop | .rst | .prngNext | .valLdacc | .decKeyacc => 0xFFFFFFFFFFFFFFFF#64
  | .rd _ => 0xFFFFFFFFFFFF00FF#64
  | .prngSeed _ | .accInit _ | .valLoad _ | .valCheck _ _ | .decKey _ => 0x00000000FFFFFFFF#64
  | .accByte _ | .decByte _ => 0xFFFFFF00FFFFFFFF#64

/-- The row of a command in the opcode table. -/
def rowOf (i : Instr) : OpRow where
  name := i.mnemonic
  bits := cmdWord (Laws.EncodedFields.opcode i) 0#8 0#32
  mask := classMask i

theorem rowOf_mem_opTable (i : Instr) : rowOf i ∈ opTable := by
  cases i <;> simp [rowOf, opTable, Instr.mnemonic, classMask, Laws.EncodedFields.opcode, cmdWord]

/-- Every row is the row of a command. -/
theorem exists_rowOf_eq {r : OpRow} (hr : r ∈ opTable) : ∃ i, rowOf i = r := by
  have h : opTable = [Instr.nop, .rst, .rd 0, .prngSeed 0, .prngNext, .accInit 0, .accByte 0, .valLoad 0, .valLdacc,
      .valCheck 0 0, .decKey 0, .decKeyacc, .decByte 0].map rowOf := by decide
  rw [h] at hr
  obtain ⟨i, -, hi⟩ := List.mem_map.1 hr
  exact ⟨i, hi⟩

/-- A row's name finds the row. -/
theorem eq_rowOf_of_name {r : OpRow} {i : Instr} (hr : r ∈ opTable) (h : i.mnemonic = r.name) : rowOf i = r :=
  List.inj_on_of_nodup_map (f := OpRow.name) (by decide) (rowOf_mem_opTable i) hr h

/-- A mask that fixes all of OPC and RSV tests those two fields and what it fixes of SEL and ARG. -/
theorem and_mask_eq_iff {m : Cmd} {ms : Byte} {ma : Word} (o : Byte) (w : Cmd)
    (hm : opcOf m = BitVec.allOnes 8 ∧ selOf m = ms ∧ rsvOf m = BitVec.allOnes 16 ∧ argOf m = ma) :
    w &&& m = cmdWord o 0#8 0#32 ↔
      opcOf w = o ∧ selOf w &&& ms = 0#8 ∧ rsvOf w = 0#16 ∧ argOf w &&& ma = 0#32 := by
  obtain ⟨ho, hs, hr, ha⟩ := hm
  rw [mask_fields, ho, hs, hr, ha, BitVec.and_allOnes, BitVec.and_allOnes]
  simp

/-! The words that agree with an opcode under the mask of a class are the words of the opcode and an operand. -/

theorem and_selMask_iff {o : Byte} {w : Cmd} :
    w &&& 0xFFFFFFFFFFFF00FF#64 = cmdWord o 0#8 0#32 ↔ ∃ sel, cmdWord o sel 0#32 = w := by
  rw [and_mask_eq_iff (ms := 0#8) (ma := BitVec.allOnes 32) o w (by decide), BitVec.and_allOnes]
  constructor
  · rintro ⟨hopc, -, hrsv, harg⟩
    exact ⟨_, cmdWord_of_fields hrsv hopc rfl harg⟩
  · rintro ⟨sel, rfl⟩
    simp

theorem and_wordMask_iff {o : Byte} {w : Cmd} :
    w &&& 0x00000000FFFFFFFF#64 = cmdWord o 0#8 0#32 ↔ ∃ v, cmdWord o 0#8 v = w := by
  rw [and_mask_eq_iff (ms := BitVec.allOnes 8) (ma := 0#32) o w (by decide), BitVec.and_allOnes]
  constructor
  · rintro ⟨hopc, hsel, hrsv, -⟩
    exact ⟨_, cmdWord_of_fields hrsv hopc hsel rfl⟩
  · rintro ⟨v, rfl⟩
    simp

theorem and_byteMask_iff {o : Byte} {w : Cmd} :
    w &&& 0xFFFFFF00FFFFFFFF#64 = cmdWord o 0#8 0#32 ↔ ∃ b, cmdWord o 0#8 (byteArg b) = w := by
  rw [and_mask_eq_iff (ms := BitVec.allOnes 8) (ma := 0xFFFFFF00#32) o w (by decide), BitVec.and_allOnes, and_byteMask]
  constructor
  · rintro ⟨hopc, hsel, hrsv, habove⟩
    exact ⟨_, cmdWord_of_fields hrsv hopc hsel (byteArg_argByte habove).symm⟩
  · rintro ⟨b, rfl⟩
    simp

theorem fits_iff {r : OpRow} {w : Cmd} :
    r.fits w = true ↔ w &&& r.mask = r.bits ∧ (r.name = "RD" → selOf w ≤ maxSel) := by
  simp [OpRow.fits, imp_iff_not_or]

/-- The encoding of a well-formed command fits the command's row. -/
theorem fits_rowOf_encode {i : Instr} (hwf : i.wf = true) : (rowOf i).fits (encode i) = true := by
  refine fits_iff.2 ⟨?mask, ?sel⟩
  case mask =>
    cases i with
    | nop | rst | prngNext | valLdacc | decKeyacc => decide
    | rd sel => exact and_selMask_iff.2 ⟨sel, rfl⟩
    | prngSeed v | accInit v | valLoad v | decKey v => exact and_wordMask_iff.2 ⟨v, rfl⟩
    | valCheck m r => exact and_wordMask_iff.2 ⟨pairArg m r, rfl⟩
    | accByte b | decByte b => exact and_byteMask_iff.2 ⟨b, rfl⟩
  case sel =>
    intro hname
    cases i with
    | rd sel => simpa [encode, Instr.wf] using hwf
    | _ => simp [rowOf, Instr.mnemonic] at hname

/-- A word that fits a command's row is the encoding of a well-formed command with that mnemonic. -/
theorem exists_encode_of_fits {i : Instr} {w : Cmd} (h : (rowOf i).fits w = true) :
    ∃ j, (j.wf = true ∧ encode j = w) ∧ j.mnemonic = i.mnemonic := by
  obtain ⟨hmask, hrd⟩ := fits_iff.1 h
  cases i with
  | rd _ =>
    obtain ⟨sel, rfl⟩ := and_selMask_iff.1 hmask
    have hsel : sel ≤ maxSel := by simpa using hrd rfl
    exact ⟨.rd sel, ⟨decide_eq_true hsel, rfl⟩, rfl⟩
  | prngSeed _ => exact (and_wordMask_iff.1 hmask).elim fun v hw => ⟨.prngSeed v, ⟨rfl, hw⟩, rfl⟩
  | accInit _ => exact (and_wordMask_iff.1 hmask).elim fun v hw => ⟨.accInit v, ⟨rfl, hw⟩, rfl⟩
  | valLoad _ => exact (and_wordMask_iff.1 hmask).elim fun v hw => ⟨.valLoad v, ⟨rfl, hw⟩, rfl⟩
  | decKey _ => exact (and_wordMask_iff.1 hmask).elim fun v hw => ⟨.decKey v, ⟨rfl, hw⟩, rfl⟩
  | valCheck _ _ =>
    obtain ⟨a, hw⟩ := and_wordMask_iff.1 hmask
    rw [← pairArg_fields a] at hw
    exact ⟨.valCheck _ _, ⟨rfl, hw⟩, rfl⟩
  | accByte _ => exact (and_byteMask_iff.1 hmask).elim fun b hw => ⟨.accByte b, ⟨rfl, hw⟩, rfl⟩
  | decByte _ => exact (and_byteMask_iff.1 hmask).elim fun b hw => ⟨.decByte b, ⟨rfl, hw⟩, rfl⟩
  | nop | rst | prngNext | valLdacc | decKeyacc =>
    refine ⟨_, ⟨?_, ?_⟩, rfl⟩
    · rfl
    · exact hmask.symm.trans BitVec.and_allOnes

/-- Settles O4: a row is the row of a command, and the words that fit it are the encodings of its commands. -/
theorem decodeAgreesWithOpcodeTable : Obligations.DecodeAgreesWithOpcodeTable := by
  intro r w hr
  simp only [decode_ok_iff_encode]
  constructor
  · rintro ⟨i, ⟨hwf, rfl⟩, hname⟩
    rw [← eq_rowOf_of_name hr hname]
    exact fits_rowOf_encode hwf
  · intro h
    obtain ⟨i, rfl⟩ := exists_rowOf_eq hr
    exact exists_encode_of_fits h

end Sys2Proof.Proofs

/-! PROOF. Commands issued by their words: a step on a word runs the command it decodes to, DEC.STR answers `decode` of
its bytes, and lines of the assembler stand for words (30_encoding.md R61 to R63, 43_decoder.md R105). -/

namespace Sys2Proof.Proofs

open Sys2Proof.Machine Sys2Proof.Safety

/-- Settles O8: the step takes the word, and the word does what its command does. -/
theorem stepRunsDecodedCommand : Obligations.StepRunsDecodedCommand := by
  intro s w rest i hinbox h
  rw [step_cons hinbox, afterInput_command, afterWord_ok h, exec_eq_after]

/-- The word of a well-formed command does what the command does. -/
theorem afterWord_encode {i : Instr} (hwf : i.wf = true) (s : State) : afterWord (encode i) s = after i s :=
  afterWord_ok (decodeOfEncode i hwf) s

/-- Issuing well-formed commands is the fold of the commands. -/
theorem issueAll_eq_foldl_after {cs : List Instr} (hwf : ∀ i ∈ cs, i.wf = true) (s : State) :
    issueAll cs s = .next (cs.foldl (fun t i => after i t) s) := by
  rw [issueAll_eq]
  exact congrArg _ (List.foldl_ext _ _ s fun t i hi => afterWord_encode (hwf i hi) t)

/-- Byte `i` is decoded with the key byte of lane `i mod 4` (20_memory.md R42). -/
theorem decodedAt_eq_xor_keyByte {key : Word} {lane : BitVec 2} {i : Nat} (h : lane.toNat = i % 4) (e : Byte) :
    decodedAt key i e = e ^^^ keyByte key lane := by
  have hkey : keyByte key lane = BitVec.ofNat 8 (key.toNat / 2 ^ (i % 4 * 8) % 256) := by
    apply BitVec.eq_of_toNat_eq
    simp [keyByte, h, Nat.shiftRight_eq_div_pow]
  rw [decodedAt, hkey]

/-- The lane counts the bytes mod 4 (10_state.md R31). -/
theorem lane_succ {lane : BitVec 2} {i : Nat} (h : lane.toNat = i % 4) : (lane + 1#2).toNat = (i + 1) % 4 := by
  simp [BitVec.toNat_add, h]

/-- DEC.BYTE on each of a list of bytes, from the lane of byte `i` on, answers their `decode`. -/
theorem foldl_decByte_rsps {key : Word} {i : Nat} {s : State} (bs : List Byte) (hkey : s.regs.key = key)
    (hlane : s.regs.lane.toNat = i % 4) :
    ((bs.map Instr.decByte).foldl (fun t c => after c t) s).rsps =
      s.rsps ++ (decodedFrom key i bs).map fun d => ⟨d.setWidth 32, false⟩ := by
  induction bs generalizing i s with
  | nil => simp [decodedFrom]
  | cons b bs ih =>
    have htail := ih (s := after (.decByte b) s) hkey (lane_succ hlane)
    rw [List.map_cons, List.foldl_cons, htail, decodedFrom, decodedAt_eq_xor_keyByte hlane]
    simp [hkey, zext]

/-- Settles O43: DEC.KEY answers (0, false) and leaves lane 0, and the bytes follow from there. -/
theorem decStrAnswersDecode : Obligations.DecStrAnswersDecode := by
  intro key bs s
  refine ⟨_, issueAll_eq_foldl_after (by simp [Pseudo.expand, Instr.wf]) s, ?_⟩
  have hbytes := foldl_decByte_rsps (i := 0) (s := after (.decKey key) s) bs rfl rfl
  simpa [Pseudo.expand] using hbytes

/-- Settles O7: each line is a closed text, which the assembler reads to the words the spec gives. -/
theorem assemblerLinesEncode : Obligations.AssemblerLinesEncode := by
  unfold Obligations.AssemblerLinesEncode
  decide

end Sys2Proof.Proofs

/-! PROOF. Issuing any command by its word, well-formed or not, and the illegal words of every opcode
(30_encoding.md R54, R57, R58). -/

namespace Sys2Proof.Proofs

open Sys2Proof.Machine Sys2Proof.Safety

/-- Only RD can be ill-formed, by a selector out of range (R57). -/
theorem wf_eq_false {i : Instr} (hwf : i.wf = false) : ∃ sel, maxSel < sel ∧ i = .rd sel := by
  cases i with
  | rd sel => exact ⟨sel, by simpa [Instr.wf] using hwf, rfl⟩
  | _ => exact nomatch hwf

theorem decode_encode_rd_ne_ok {sel : Byte} (hsel : maxSel < sel) : ∀ i, decode (encode (.rd sel)) ≠ .ok i := by
  simp [encode, decode_ok, decodeOpc, takeSel_ok, hsel]

/-- The word of any command does what the command does: an RD with an illegal selector raises the error that its
word raises (R57, log entry 5). -/
theorem afterWord_encode_eq_after (i : Instr) (s : State) : afterWord (encode i) s = after i s := by
  cases hwf : i.wf with
  | true => exact afterWord_encode hwf s
  | false =>
    obtain ⟨sel, hsel, rfl⟩ := wf_eq_false hwf
    obtain ⟨r, hr⟩ := decode_not_ok.1 (decode_encode_rd_ne_ok hsel)
    rw [afterWord_error hr, after_rd_none ((regOfSel_none_iff sel).2 hsel)]

theorem issue_eq_after (i : Instr) (s : State) : issue i s = .next (after i s) := by
  rw [issue_eq, afterWord_encode_eq_after]

/-- Issuing any command list is the fold of the commands. -/
theorem issueAll_eq_foldl (cs : List Instr) (s : State) :
    issueAll cs s = .next (cs.foldl (fun t i => after i t) s) := by
  simp only [issueAll_eq, afterWord_encode_eq_after]

theorem opcOf_encode (i : Instr) : opcOf (encode i) = Laws.EncodedFields.opcode i := by
  cases i <;> simp [encode, Laws.EncodedFields.opcode]

/-- The opcode finds the row. -/
theorem rowOf_eq_of_opcode {i j : Instr} (h : Laws.EncodedFields.opcode i = Laws.EncodedFields.opcode j) :
    rowOf i = rowOf j :=
  List.inj_on_of_nodup_map (f := OpRow.bits) (by decide) (rowOf_mem_opTable i) (rowOf_mem_opTable j)
    (congrArg (cmdWord · 0#8 0#32) h)

theorem cmdWord_zero (o : Byte) : cmdWord o 0#8 0#32 = o.setWidth 64 := by
  apply BitVec.eq_of_toNat_eq
  rw [cmdWord_toNat, BitVec.toNat_setWidth_of_le (by decide)]
  simp

/-- A legal word with a command's opcode is a word of that command's row, so a word that the mask rejects is illegal
(R54). -/
theorem otherWordsIllegal_opcode (i : Instr) : otherWordsIllegal (Laws.EncodedFields.opcode i) (classMask i) := by
  intro w s hopc hmask
  refine issueWord_illegal (fun j hj => hmask ?_) s
  obtain ⟨hwf, rfl⟩ := decode_ok_iff_encode.1 hj
  obtain ⟨hfit, -⟩ := fits_iff.1 (fits_rowOf_encode hwf)
  rw [rowOf_eq_of_opcode ((opcOf_encode j).symm.trans hopc)] at hfit
  exact hfit.trans (cmdWord_zero _)

end Sys2Proof.Proofs

/-! PROOF. The PRNG unit: the two commands, the draws as a function of the seed and their number, the seed twins, and
the generator without a fixed point (40_prng.md R71 to R76). -/

namespace Sys2Proof.Proofs

open Sys2Proof.Machine Sys2Proof.Safety

/-- The update of the word is the source's update of the number (R70, R72). -/
theorem prngUpdate_toNat (x : Word) : (prngUpdate x).toNat = seqNext x.toNat := by
  simp [prngUpdate, prngA, prngC, seqNext, BitVec.toNat_add, BitVec.toNat_mul]

/-! ## The two commands -/

/-- Settles O18: the opcode's row fixes its illegal words, and the command writes the unit. -/
theorem prngSeedLoadsAndClears : Obligations.PrngSeedLoadsAndClears := by
  refine ⟨otherWordsIllegal_opcode (.prngSeed 0), fun seed s => ⟨?word, exec_eq_after _ s⟩⟩
  case word => simp [encode, cmdWord_toNat]

/-- Settles O19: the witnesses are the updated state and its draw. -/
theorem prngNextDraws : Obligations.PrngNextDraws := by
  refine ⟨by decide, otherWordsIllegal_opcode .prngNext, fun s => ?_⟩
  exact ⟨prngUpdate s.regs.state, drawOf (prngUpdate s.regs.state), prngUpdate_toNat _, rfl, drawOf_toNat _,
    exec_eq_after _ s⟩

/-! ## The draws after a seed -/

/-- The generator stands where `k` draws from the seed leave it (R73). -/
def DrawnFrom (seed : Word) (k : Nat) (s : State) : Prop :=
  s.regs.state.toNat = seqState seed.toNat k ∧ s.regs.dcnt.toNat = k % 2 ^ 32

theorem drawnFrom_prngSeed (seed : Word) (s : State) : DrawnFrom seed 0 (after (.prngSeed seed) s) :=
  ⟨rfl, rfl⟩

theorem drawnFrom_prngNext {seed : Word} {k : Nat} {s : State} (hs : DrawnFrom seed k s) :
    DrawnFrom seed (k + 1) (after .prngNext s) := by
  obtain ⟨hstate, hdcnt⟩ := hs
  constructor
  · simp [prngUpdate_toNat, hstate, seqState]
  · simp [BitVec.toNat_add, hdcnt]

/-- The commands of the other units leave the generator where it stands. -/
theorem drawnFrom_other {seed : Word} {k : Nat} {s : State} {i : Instr} (hrestart : restartsPrng i = false)
    (hnext : i ≠ .prngNext) (hs : DrawnFrom seed k s) : DrawnFrom seed k (after i s) := by
  obtain ⟨hstate, -, hdcnt⟩ := after_prng_frame hrestart hnext s
  rwa [DrawnFrom, hstate, hdcnt]

/-- A command list moves the generator on by the draws in it. -/
theorem drawnFrom_foldl {seed : Word} {k : Nat} {s : State} {cs : List Instr}
    (hrestart : ∀ i ∈ cs, restartsPrng i = false) (hs : DrawnFrom seed k s) :
    DrawnFrom seed (k + cs.count .prngNext) (cs.foldl (fun t i => after i t) s) := by
  induction cs generalizing k s with
  | nil => exact hs
  | cons i is ih =>
    obtain ⟨hi, his⟩ := List.forall_mem_cons.1 hrestart
    by_cases hnext : i = .prngNext
    · subst hnext
      rw [List.count_cons_self, ← Nat.add_assoc, Nat.add_right_comm]
      exact ih his (drawnFrom_prngNext hs)
    · rw [List.count_cons_of_ne hnext]
      exact ih his (drawnFrom_other hi hnext hs)

/-- The next draw answers the output of the next state (R73). -/
theorem drawnFrom_response {seed : Word} {k : Nat} {s : State} (hs : DrawnFrom seed k s) :
    (after .prngNext s).rsps = s.rsps ++ [⟨BitVec.ofNat 32 (seqOut (seqState seed.toNat (k + 1))), false⟩] := by
  have hdraw : zext (drawOf (prngUpdate s.regs.state)) =
      BitVec.ofNat 32 (seqOut (seqState seed.toNat (k + 1))) := by
    rw [zext, ← BitVec.ofNat_toNat, drawOf_toNat, prngUpdate_toNat, hs.1, seqState]
  rw [after_prngNext, State.respond_rsps, hdraw, State.setPrng_rsps]

/-- Settles O30: the seed stands at 0 draws, and the list moves it on by the draws in it. -/
theorem drawsAreFunctionOfSeedAndCount : Obligations.DrawsAreFunctionOfSeedAndCount := by
  intro seed cs s hrestart
  have hdrawn := drawnFrom_foldl hrestart (drawnFrom_prngSeed seed s)
  rw [Nat.zero_add] at hdrawn
  exact ⟨_, _, issueAll_eq_foldl _ s, hdrawn.1, hdrawn.2, issue_eq_after _ _, drawnFrom_response hdrawn⟩

/-! ## Seed twins -/

/-- On the top bit a sum has no carry to pass on. -/
theorem xor_topBit (x : Word) : x ^^^ 0x80000000#32 = x + 0x80000000#32 := by
  have hdiv : (x.toNat ^^^ 0x80000000) / 2 ^ 31 = x.toNat / 2 ^ 31 ^^^ 1 := Nat.xor_div_two_pow
  have hmod : (x.toNat ^^^ 0x80000000) % 2 ^ 31 = x.toNat % 2 ^ 31 ^^^ 0 := Nat.xor_mod_two_pow
  rw [Nat.xor_zero] at hmod
  apply BitVec.eq_of_toNat_eq
  rw [BitVec.toNat_xor, BitVec.toNat_add]
  change x.toNat ^^^ 0x80000000 = (x.toNat + 0x80000000) % 2 ^ 32
  obtain h | h : x.toNat / 2 ^ 31 = 0 ∨ x.toNat / 2 ^ 31 = 1 := by omega
  · rw [h, Nat.zero_xor] at hdiv
    omega
  · rw [h, Nat.xor_self] at hdiv
    omega

/-- A flip of bit 31 stays in bit 31: the multiplier is odd, so `A * 2^31 = 2^31` (R76). -/
theorem prngUpdate_xor_topBit (x : Word) : prngUpdate (x ^^^ 0x80000000#32) = prngUpdate x ^^^ 0x80000000#32 := by
  have hodd : prngA * 0x80000000#32 = 0x80000000#32 := by decide
  rw [xor_topBit, xor_topBit, prngUpdate, prngUpdate, BitVec.mul_add, hodd, BitVec.add_assoc]

/-- The draw does not look at bit 31 (R72, R76). -/
theorem drawOf_xor_topBit (x : Word) : drawOf (x ^^^ 0x80000000#32) = drawOf x := by
  have hbit : BitVec.extractLsb' 16 15 0x80000000#32 = 0#15 := by decide
  rw [drawOf, BitVec.extractLsb'_xor, hbit, BitVec.xor_zero, drawOf]

/-- The state with the twin of its generator state (R76). -/
def twin (s : State) : State := { s with regs := { s.regs with state := s.regs.state ^^^ 0x80000000#32 } }

/-- Twins draw alike and stay twins. -/
theorem after_prngNext_twin (s : State) : after .prngNext (twin s) = twin (after .prngNext s) := by
  have hstate : prngUpdate (twin s).regs.state = prngUpdate s.regs.state ^^^ 0x80000000#32 :=
    prngUpdate_xor_topBit s.regs.state
  rw [after_prngNext, hstate, drawOf_xor_topBit]
  rfl

theorem foldl_prngNext_twin (k : Nat) (s : State) :
    (List.replicate k Instr.prngNext).foldl (fun t i => after i t) (twin s) =
      twin ((List.replicate k Instr.prngNext).foldl (fun t i => after i t) s) := by
  induction k generalizing s with
  | zero => rfl
  | succ k ih => rw [List.replicate_succ, List.foldl_cons, List.foldl_cons, after_prngNext_twin, ih]

/-- Settles O31: the two seeds leave twins, and the draws keep them so. -/
theorem seedTwinsDrawAlike : Obligations.SeedTwinsDrawAlike := by
  intro seed k s
  have htwin := foldl_prngNext_twin k (after (.prngSeed seed) s)
  refine ⟨_, _, issueAll_eq_foldl _ s, issueAll_eq_foldl _ s, ?rsps, ?regs⟩
  case rsps => exact (congrArg State.rsps htwin :)
  case regs => exact (congrArg State.regs htwin :)

/-! ## No fixed point -/

/-- An update flips bit 0: the multiplier and the increment are odd (R74). -/
theorem seqNext_mod_two (n : Nat) : seqNext n % 2 = (n + 1) % 2 := by
  unfold seqNext
  omega

/-- Settles O32: the two states differ in bit 0. -/
theorem generatorHasNoFixedPoint : Obligations.GeneratorHasNoFixedPoint := by
  refine fun s => ⟨_, exec_eq_after _ s, fun hfixed => ?_⟩
  have hnat : seqNext s.regs.state.toNat = s.regs.state.toNat :=
    (prngUpdate_toNat _).symm.trans (congrArg BitVec.toNat hfixed)
  have hflip := seqNext_mod_two s.regs.state.toNat
  omega

end Sys2Proof.Proofs

/-! PROOF. The checksum unit: the two commands, ACC as the weighted checksum of the bytes fed since ACC.INIT, the first
byte's weight 0, and the swap of two bytes (41_checksum.md R80 to R84). -/

namespace Sys2Proof.Proofs

open Sys2Proof.Machine Sys2Proof.Safety

/-- The new ACC as a number: the wraps of the product and of the sum are one reduction mod 2^32 (R81). -/
theorem accTerm_eq_ofNat (acc aidx : Word) (b : Byte) :
    accTerm acc aidx b = BitVec.ofNat 32 (acc.toNat + b.toNat * aidx.toNat) := by
  simp [accTerm, zext, BitVec.ofNat_add, BitVec.ofNat_mul]

/-- An index counted on numbers may wrap at any time before the product (R27, R83). -/
theorem accTerm_ofNat (acc : Word) (n : Nat) (b : Byte) :
    accTerm acc (BitVec.ofNat 32 n) b = acc + BitVec.ofNat 32 (b.toNat * n) := by
  simp [accTerm, zext, BitVec.ofNat_mul]

/-! ## The two commands -/

/-- Settles O20: the opcode's row fixes its illegal words, and the command writes the unit. -/
theorem accInitStartsChecksum : Obligations.AccInitStartsChecksum := by
  refine ⟨otherWordsIllegal_opcode (.accInit 0), fun base s => ⟨?word, exec_eq_after _ s⟩⟩
  case word => simp [encode, cmdWord_toNat]

/-- Settles O21: the word holds the byte as a number, and the command adds the product of the two numbers. -/
theorem accByteAddsWeightedByte : Obligations.AccByteAddsWeightedByte := by
  refine ⟨otherWordsIllegal_opcode (.accByte 0), fun b s => ⟨?word, ?next⟩⟩
  case word => simp [encode, cmdWord_toNat, byteArg_toNat]
  case next =>
    rw [exec_eq_after, after_accByte, accTerm_eq_ofNat]
    rfl

/-! ## The checksum of a byte sequence -/

theorem accOperand_eq_some {i : Instr} {b : Byte} : accOperand i = some b ↔ i = .accByte b := by
  cases i <;> simp [accOperand]

/-- The weights of a second sequence go on where those of the first end. -/
theorem weighted_append (i : Nat) (as bs : List Byte) :
    weighted i (as ++ bs) = weighted i as + weighted (i + as.length) bs := by
  induction as generalizing i with
  | nil => simp [weighted]
  | cons a as ih =>
    have hidx : i + (as.length + 1) = i + 1 + as.length := by omega
    rw [List.cons_append, weighted, weighted, ih, List.length_cons, hidx, ← Nat.add_assoc]

/-- The unit stands where the bytes fed since ACC.INIT leave it (R83). -/
def Summed (base : Word) (bs : List Byte) (s : State) : Prop :=
  s.regs.acc = base + BitVec.ofNat 32 (weighted 0 bs) ∧ s.regs.aidx = BitVec.ofNat 32 bs.length

theorem summed_accInit (base : Word) (s : State) : Summed base [] (after (.accInit base) s) := by
  simp [Summed, weighted]

theorem summed_accByte {base : Word} {bs : List Byte} {s : State} (b : Byte) (hs : Summed base bs s) :
    Summed base (bs ++ [b]) (after (.accByte b) s) := by
  obtain ⟨hacc, haidx⟩ := hs
  constructor
  · simp [hacc, haidx, accTerm_ofNat, weighted_append, weighted, BitVec.ofNat_add, BitVec.add_assoc]
  · simp [haidx, BitVec.ofNat_add]

/-- The commands of the other units leave the checksum where it stands. -/
theorem summed_other {base : Word} {bs : List Byte} {s : State} {i : Instr} (hrestart : restartsAcc i = false)
    (hbyte : accOperand i = none) (hs : Summed base bs s) : Summed base bs (after i s) := by
  obtain ⟨hacc, haidx⟩ := after_acc_frame hrestart hbyte s
  rwa [Summed, hacc, haidx]

/-- A command list appends the bytes in it. -/
theorem summed_foldl {base : Word} {bs : List Byte} {s : State} {cs : List Instr}
    (hrestart : ∀ i ∈ cs, restartsAcc i = false) (hs : Summed base bs s) :
    Summed base (bs ++ cs.filterMap accOperand) (cs.foldl (fun t i => after i t) s) := by
  induction cs generalizing bs s with
  | nil => simpa using hs
  | cons i is ih =>
    obtain ⟨hi, his⟩ := List.forall_mem_cons.1 hrestart
    cases hop : accOperand i with
    | none =>
      rw [List.filterMap_cons_none hop]
      exact ih his (summed_other hi hop hs)
    | some b =>
      obtain rfl := accOperand_eq_some.1 hop
      rw [List.filterMap_cons_some hop, List.append_cons]
      exact ih his (summed_accByte b hs)

/-- ACC.INIT and any list without a restart: the checksum of the bytes in the list. -/
theorem summed_issueAll {cs : List Instr} (hrestart : ∀ i ∈ cs, restartsAcc i = false) (base : Word) (s : State) :
    ∃ t, issueAll (.accInit base :: cs) s = .next t ∧ Summed base (cs.filterMap accOperand) t := by
  have hsummed := summed_foldl hrestart (summed_accInit base s)
  rw [List.nil_append] at hsummed
  exact ⟨_, issueAll_eq_foldl _ s, hsummed⟩

/-- Settles O33: ACC.INIT stands at no bytes, the list appends its own, and the words are read as numbers. -/
theorem checksumOfByteSequence : Obligations.ChecksumOfByteSequence := by
  intro base cs s hrestart
  obtain ⟨t, hissue, hacc, haidx⟩ := summed_issueAll hrestart base s
  refine ⟨t, hissue, ?acc, ?aidx⟩
  case acc => rw [hacc, compute, BitVec.toNat_add, BitVec.toNat_ofNat, Nat.add_mod_mod]
  case aidx => rw [haidx, BitVec.toNat_ofNat]

/-! ## The first byte and the swap of two bytes -/

/-- A byte at index 0 adds nothing, so it does not show (R82). -/
theorem after_accByte_of_aidx_zero {s : State} (haidx : s.regs.aidx = 0#32) (b : Byte) :
    after (.accByte b) s = (s.setAcc s.regs.acc 1#32).respond s.regs.acc false := by
  simp [haidx, accTerm]

/-- Settles O34: the two sequences meet again after their first byte. -/
theorem firstByteHasNoWeight : Obligations.FirstByteHasNoWeight := by
  intro base b b' bs s
  have hmeet : after (.accByte b) (after (.accInit base) s) = after (.accByte b') (after (.accInit base) s) := by
    rw [after_accByte_of_aidx_zero rfl, after_accByte_of_aidx_zero rfl]
  refine ⟨_, issueAll_eq_foldl _ s, (issueAll_eq_foldl _ s).trans (congrArg _ ?_)⟩
  simp only [Pseudo.expand, List.map_cons, List.foldl_cons, hmeet]

/-- ACC.STR leaves the checksum of its bytes in ACC (30_encoding.md R63). -/
theorem issueAll_accStr_acc (base : Word) (bs : List Byte) (s : State) :
    ∃ t, issueAll (Pseudo.expand (.accStr base bs)) s = .next t ∧
      t.regs.acc = base + BitVec.ofNat 32 (weighted 0 bs) := by
  have hrestart : ∀ i ∈ bs.map Instr.accByte, restartsAcc i = false := List.forall_mem_map.2 fun _ _ => rfl
  have hbytes : (bs.map Instr.accByte).filterMap accOperand = bs := by
    rw [List.filterMap_map]
    exact List.filterMap_some
  obtain ⟨t, hissue, hacc, -⟩ := summed_issueAll hrestart base s
  rw [hbytes] at hacc
  exact ⟨t, hissue, hacc⟩

/-- Each of the two bytes gains or loses their distance in weight, and the others keep theirs (R84). -/
theorem weighted_swap (i : Nat) (pre mid post : List Byte) (x y : Byte) :
    weighted i (pre ++ y :: (mid ++ x :: post)) + y.toNat * (1 + mid.length) =
      weighted i (pre ++ x :: (mid ++ y :: post)) + x.toNat * (1 + mid.length) := by
  simp only [weighted_append, weighted]
  ring

/-- Settles O35: the equation of the weighted sums, read in words. -/
theorem swappedBytesChangeChecksum : Obligations.SwappedBytesChangeChecksum := by
  intro base pre mid post x y s
  obtain ⟨t, ht, hacct⟩ := issueAll_accStr_acc base (pre ++ x :: (mid ++ y :: post)) s
  obtain ⟨u, hu, haccu⟩ := issueAll_accStr_acc base (pre ++ y :: (mid ++ x :: post)) s
  refine ⟨t, u, ht, hu, ?_⟩
  have hdist : pre.length + 1 + mid.length - pre.length = 1 + mid.length := by omega
  have hswap := congrArg (BitVec.ofNat 32) (weighted_swap 0 pre mid post x y)
  rw [BitVec.ofNat_add, BitVec.ofNat_add, BitVec.ofNat_mul, BitVec.ofNat_mul, BitVec.ofNat_toNat,
    BitVec.ofNat_toNat] at hswap
  rw [haccu, hacct, hdist]
  linear_combination hswap

end Sys2Proof.Proofs

/-! PROOF. The validator: the three commands, VOK as the verdict of the pairs checked since the load, the pair that no
checksum satisfies, and the one checksum of the reference set (42_validator.md R90 to R96). -/

namespace Sys2Proof.Proofs

open Sys2Proof.Machine Sys2Proof.Safety

/-! ## The three commands -/

/-- The new VOK by the pair as numbers (R92). -/
theorem vokAfter_eq (vok : Bool) (x : Word) (m r : Half) :
    vokAfter vok x m r = (vok && decide (x.toNat % m.toNat = r.toNat)) := by
  rw [vokAfter, Bool.eq_iff_iff.2 ((pairOk_iff x m r).trans decide_eq_true_iff.symm)]

theorem zext_ofBool (b : Bool) : zext (BitVec.ofBool b) = if b then 1#32 else 0#32 := by
  cases b <;> rfl

/-- Settles O22: the opcode's row fixes its illegal words, and the command writes the unit. -/
theorem valLoadOpensSet : Obligations.ValLoadOpensSet := by
  refine ⟨otherWordsIllegal_opcode (.valLoad 0), fun x s => ⟨?word, exec_eq_after _ s⟩⟩
  case word => simp [encode, cmdWord_toNat]

/-- Settles O23: the opcode's row fixes its illegal words, and the command writes the unit. -/
theorem valLdaccOpensSetFromAcc : Obligations.ValLdaccOpensSetFromAcc :=
  ⟨by decide, otherWordsIllegal_opcode .valLdacc, exec_eq_after _⟩

/-- Settles O24: the word holds the pair as a number, and the command asks for the remainder of two numbers unless the
modulus is 0. -/
theorem valCheckTestsPair : Obligations.ValCheckTestsPair := by
  refine ⟨otherWordsIllegal_opcode (.valCheck 0 0), fun m r s => ⟨?word, ?zero, ?pos⟩⟩
  case word => simp [encode, cmdWord_toNat, pairArg_toNat]
  case zero =>
    rintro rfl
    exact exec_eq_after _ s
  case pos =>
    intro hm
    rw [exec_eq_after, after_valCheck_pos hm, vokAfter_eq, zext_ofBool]
    rfl

/-- Settles O38: a remainder lies below its modulus. -/
theorem residueNotBelowModulusFails : Obligations.ResidueNotBelowModulusFails := by
  intro m r s hm hr
  have hpos : m ≠ 0#16 := by
    rintro rfl
    exact absurd hm (by decide)
  have hlt : s.regs.vx.toNat % m.toNat < m.toNat := Nat.mod_lt _ hm
  have hvok : vokAfter s.regs.vok s.regs.vx m r = false := by
    rw [vokAfter_eq, decide_eq_false (by omega), Bool.and_false]
  refine ⟨_, exec_eq_after _ s, ?_, ?_⟩ <;> rw [after_valCheck_pos hpos, hvok] <;> rfl

/-! ## The verdict of a constraint set -/

theorem checkOperand_eq_some {i : Instr} {p : Half × Half} :
    checkOperand i = some p ↔ i = .valCheck p.1 p.2 := by
  cases i <;> simp [checkOperand, Prod.ext_iff]

theorem accepts_append (x : Word) (ps qs : List (Half × Half)) :
    accepts x (ps ++ qs) = (accepts x ps && accepts x qs) :=
  List.all_append

/-- The verdict asks every pair, so it depends on the set of the pairs alone (R94). -/
theorem accepts_eq_true {x : Word} {ps : List (Half × Half)} :
    accepts x ps = true ↔ ∀ p ∈ ps, p.1.toNat ≠ 0 ∧ x.toNat % p.1.toNat = p.2.toNat := by
  simp only [accepts, List.all_eq_true, Bool.and_eq_true, decide_eq_true_iff]

theorem accepts_congr {ps qs : List (Half × Half)} (h : ∀ p, p ∈ ps ↔ p ∈ qs) (x : Word) :
    accepts x ps = accepts x qs := by
  rw [Bool.eq_iff_iff, accepts_eq_true, accepts_eq_true]
  simp only [h]

/-- VAL.CHECK ANDs the verdict of its own pair into VOK, a modulus 0 being no pair that is satisfied (R92, R93). -/
theorem after_valCheck_vok (m r : Half) (s : State) :
    (after (.valCheck m r) s).regs.vok = (s.regs.vok && accepts s.regs.vx [(m, r)]) := by
  by_cases hm : m = 0#16
  · simp [hm, accepts]
  · have hpos : m.toNat ≠ 0 := fun h => hm (BitVec.eq_of_toNat_eq h)
    simp [hm, hpos, accepts, vokAfter_eq]

/-- A command list without a restart ANDs the verdict of its pairs into VOK (R94). -/
theorem foldl_after_vok {cs : List Instr} (hrestart : ∀ i ∈ cs, restartsVal i = false) (s : State) :
    (cs.foldl (fun t i => after i t) s).regs.vok =
      (s.regs.vok && accepts s.regs.vx (cs.filterMap checkOperand)) := by
  induction cs generalizing s with
  | nil => simp [accepts]
  | cons i is ih =>
    obtain ⟨hi, his⟩ := List.forall_mem_cons.1 hrestart
    obtain ⟨hvx, hvok⟩ := after_val_frame hi s
    rw [List.foldl_cons, ih his, hvx]
    cases hop : checkOperand i with
    | none => rw [hvok hop, List.filterMap_cons_none hop]
    | some p =>
      obtain rfl := checkOperand_eq_some.1 hop
      rw [after_valCheck_vok, List.filterMap_cons_some hop, Bool.and_assoc, ← accepts_append, List.singleton_append]

/-- VAL.LOAD and VAL.SET: the verdict of the pairs set (30_encoding.md R63). -/
theorem issueAll_valSet_vok (x : Word) (ps : List (Half × Half)) (s : State) :
    ∃ t, issueAll (.valLoad x :: Pseudo.expand (.valSet ps)) s = .next t ∧ t.regs.vok = accepts x ps := by
  have hrestart : ∀ i ∈ Pseudo.expand (.valSet ps), restartsVal i = false := List.forall_mem_map.2 fun _ _ => rfl
  have hpairs : (Pseudo.expand (.valSet ps)).filterMap checkOperand = ps := by
    rw [Pseudo.expand, List.filterMap_map]
    exact List.filterMap_some
  refine ⟨_, issueAll_eq_foldl _ s, (foldl_after_vok hrestart _).trans ?_⟩
  rw [hpairs]
  exact Bool.true_and _

/-- Settles O36: each load sets VX and VOK, the list ANDs its pairs into VOK, and the verdict looks at the set of the
pairs alone. -/
theorem vokIsConstraintSetVerdict : Obligations.VokIsConstraintSetVerdict := by
  refine ⟨fun x cs s hrestart => ?verdict, fun x ps qs s hsame => ?order⟩
  case verdict =>
    exact ⟨_, _, issueAll_eq_foldl _ s, foldl_after_vok hrestart (after (.valLoad x) s),
      issueAll_eq_foldl _ s, foldl_after_vok hrestart (after .valLdacc s)⟩
  case order =>
    obtain ⟨t, ht, hvokt⟩ := issueAll_valSet_vok x ps s
    obtain ⟨u, hu, hvoku⟩ := issueAll_valSet_vok x qs s
    exact ⟨t, u, ht, hu, by rw [hvoku, hvokt, accepts_congr hsame]⟩

/-! ## The checksums that satisfy one set -/

/-- The least common multiple of the moduli of a set (R96). -/
def moduliLcm : List (Half × Half) → Nat
  | [] => 1
  | p :: ps => Nat.lcm p.1.toNat (moduliLcm ps)

/-- Checksums that satisfy one set agree modulo every modulus, so modulo their least common multiple. -/
theorem modEq_of_accepts {x y : Word} {ps : List (Half × Half)} (hx : accepts x ps = true)
    (hy : accepts y ps = true) : x.toNat ≡ y.toNat [MOD moduliLcm ps] := by
  rw [accepts_eq_true] at hx hy
  induction ps with
  | nil => exact Nat.modEq_one
  | cons p ps ih =>
    obtain ⟨⟨-, hxp⟩, hxs⟩ := List.forall_mem_cons.1 hx
    obtain ⟨⟨-, hyp⟩, hys⟩ := List.forall_mem_cons.1 hy
    exact Nat.mod_lcm (hxp.trans hyp.symm) (ih hxs hys)

/-- A set whose moduli have no common multiple below 2^32 but 0 leaves one checksum at most (R96). -/
theorem eq_of_accepts {x y : Word} {ps : List (Half × Half)} (hlcm : 2 ^ 32 ≤ moduliLcm ps)
    (hx : accepts x ps = true) (hy : accepts y ps = true) : x = y :=
  BitVec.eq_of_toNat_eq <|
    (modEq_of_accepts hx hy).eq_of_lt_of_lt (x.isLt.trans_le hlcm) (y.isLt.trans_le hlcm)

/-- Settles O39: 0x8000203D satisfies the set, and the moduli's least common multiple exceeds 2^32. -/
theorem referenceSetHasOneChecksum : Obligations.ReferenceSetHasOneChecksum := by
  intro x s
  obtain ⟨t, ht, hvok⟩ := issueAll_valSet_vok x _ s
  refine ⟨t, ht, ?_⟩
  rw [hvok]
  constructor
  case mp => exact fun hx => eq_of_accepts (by decide) hx (by decide)
  case mpr =>
    rintro rfl
    decide

end Sys2Proof.Proofs

/-! PROOF. The decoder: the three commands, the bytes answered after a key load as `decode` of the bytes sent, decoding
as its own inverse, and the key byte that returns after four bytes (43_decoder.md R100 to R105). -/

namespace Sys2Proof.Proofs

open Sys2Proof.Machine Sys2Proof.Safety

/-! ## The three commands -/

/-- Settles O25: the opcode's row fixes its illegal words, and the command writes the unit. -/
theorem decKeyRestartsLanes : Obligations.DecKeyRestartsLanes := by
  refine ⟨otherWordsIllegal_opcode (.decKey 0), fun key s => ⟨?word, exec_eq_after _ s⟩⟩
  case word => simp [encode, cmdWord_toNat]

/-- Settles O26: the opcode's row fixes its illegal words, and the command writes the unit. -/
theorem decKeyaccCopiesAcc : Obligations.DecKeyaccCopiesAcc :=
  ⟨by decide, otherWordsIllegal_opcode .decKeyacc, exec_eq_after _⟩

/-- The key byte by division on numbers (R102). -/
theorem keyByte_eq_ofNat (key : Word) (lane : BitVec 2) :
    keyByte key lane = BitVec.ofNat 8 (key.toNat / 2 ^ (lane.toNat * 8)) := by
  apply BitVec.eq_of_toNat_eq
  simp [keyByte, Nat.shiftRight_eq_div_pow]

/-- The next lane as a number mod 4 (R102). -/
theorem lane_add_one_eq_ofNat (lane : BitVec 2) : lane + 1#2 = BitVec.ofNat 2 ((lane.toNat + 1) % 4) := by
  apply BitVec.eq_of_toNat_eq
  simp [BitVec.toNat_add]

/-- Settles O27: the word holds the byte as a number, and the command XORs the key byte of its lane into it. -/
theorem decByteXorsKeyByte : Obligations.DecByteXorsKeyByte := by
  refine ⟨otherWordsIllegal_opcode (.decByte 0), fun b s => ⟨?word, ?next⟩⟩
  case word => simp [encode, cmdWord_toNat, byteArg_toNat]
  case next =>
    rw [exec_eq_after, after_decByte, keyByte_eq_ofNat, lane_add_one_eq_ofNat]
    rfl

/-! ## The two key loads -/

/-- The command loads this key: DEC.KEY with it, or DEC.KEYACC with it in ACC (R100, R101). -/
def LoadsKey (load : Instr) (key : Word) (s : State) : Prop :=
  load = .decKey key ∨ (load = .decKeyacc ∧ s.regs.acc = key)

/-- The two key loads do the same. -/
theorem after_keyLoad {load : Instr} {key : Word} {s : State} (hload : LoadsKey load key s) :
    after load s = (s.setKey key 0#2).respond 0#32 false := by
  obtain rfl | ⟨rfl, rfl⟩ := hload
  · exact after_decKey key s
  · exact after_decKeyacc s

/-! ## The bytes after a key load -/

/-- The decoder stands where a load of the key and `n` bytes since leave it (10_state.md R30, R31). -/
def Keyed (key : Word) (n : Nat) (s : State) : Prop :=
  s.regs.key = key ∧ s.regs.lane.toNat = n % 4

theorem keyed_keyLoad {load : Instr} {key : Word} {s : State} (hload : LoadsKey load key s) :
    Keyed key 0 (after load s) := by
  rw [after_keyLoad hload]
  exact ⟨rfl, rfl⟩

theorem keyed_decByte {key : Word} {n : Nat} {s : State} (b : Byte) (hs : Keyed key n s) :
    Keyed key (n + 1) (after (.decByte b) s) :=
  ⟨hs.1, lane_succ hs.2⟩

/-- The commands of the other units leave the decoder where it stands. -/
theorem keyed_other {key : Word} {n : Nat} {s : State} {i : Instr} (hrestart : restartsDec i = false)
    (hbyte : decOperand i = none) (hs : Keyed key n s) : Keyed key n (after i s) := by
  obtain ⟨hkey, hlane⟩ := after_key_frame hrestart s
  rwa [Keyed, hkey, hlane hbyte]

theorem decOperand_eq_some {i : Instr} {b : Byte} : decOperand i = some b ↔ i = .decByte b := by
  cases i <;> simp [decOperand]

/-- A command list moves the decoder on by the bytes in it. -/
theorem keyed_foldl {key : Word} {n : Nat} {s : State} {cs : List Instr}
    (hrestart : ∀ i ∈ cs, restartsDec i = false) (hs : Keyed key n s) :
    Keyed key (n + (cs.filterMap decOperand).length) (cs.foldl (fun t i => after i t) s) := by
  induction cs generalizing n s with
  | nil => exact hs
  | cons i is ih =>
    obtain ⟨hi, his⟩ := List.forall_mem_cons.1 hrestart
    cases hop : decOperand i with
    | none =>
      rw [List.filterMap_cons_none hop]
      exact ih his (keyed_other hi hop hs)
    | some b =>
      obtain rfl := decOperand_eq_some.1 hop
      rw [List.filterMap_cons_some hop, List.length_cons, Nat.add_comm _ 1, ← Nat.add_assoc]
      exact ih his (keyed_decByte b hs)

/-- The next byte answers its `decode` (R105). -/
theorem keyed_response {key : Word} {n : Nat} {s : State} (hs : Keyed key n s) (e : Byte) :
    (after (.decByte e) s).rsps = s.rsps ++ [⟨(decodedAt key n e).setWidth 32, false⟩] := by
  obtain ⟨hkey, hlane⟩ := hs
  rw [decodedAt_eq_xor_keyByte hlane, ← hkey]
  rfl

/-- Settles O42: the load stands at 0 bytes, and the list moves the decoder on by the bytes in it. -/
theorem decodedByteSequence : Obligations.DecodedByteSequence := by
  intro load key cs s hload hrestart
  have hkeyed := keyed_foldl hrestart (keyed_keyLoad hload)
  rw [Nat.zero_add] at hkeyed
  exact ⟨_, issueAll_eq_foldl _ s, hkeyed.1, hkeyed.2, fun e => ⟨_, issue_eq_after _ _, keyed_response hkeyed e⟩⟩

/-! ## Decoding twice -/

/-- The same key byte twice cancels. -/
theorem decodedAt_decodedAt (key : Word) (i : Nat) (e : Byte) : decodedAt key i (decodedAt key i e) = e := by
  rw [decodedAt, decodedAt, BitVec.xor_assoc, BitVec.xor_self, BitVec.xor_zero]

/-- `decode` is its own inverse (R104). -/
theorem decodedFrom_decodedFrom (key : Word) (i : Nat) (bs : List Byte) :
    decodedFrom key i (decodedFrom key i bs) = bs := by
  induction bs generalizing i with
  | nil => rfl
  | cons b bs ih => rw [decodedFrom, decodedFrom, decodedAt_decodedAt, ih]

/-- Decoding leaves the checksum alone. -/
theorem foldl_decByte_acc (bs : List Byte) (s : State) :
    ((bs.map Instr.decByte).foldl (fun t i => after i t) s).regs.acc = s.regs.acc := by
  induction bs generalizing s with
  | nil => rfl
  | cons b bs ih => exact ih (after (.decByte b) s)

/-- A key load and the bytes after it answer (0, false) and `decode` of the bytes, and leave ACC for another load. -/
theorem issueAll_keyLoad_decBytes {load : Instr} {key : Word} {s : State} (hload : LoadsKey load key s)
    (bs : List Byte) :
    ∃ t, issueAll (load :: bs.map .decByte) s = .next t ∧
      t.rsps = s.rsps ++ ⟨0#32, false⟩ :: (decodedFrom key 0 bs).map (fun d => ⟨d.setWidth 32, false⟩) ∧
      t.regs.acc = s.regs.acc := by
  obtain ⟨hkey, hlane⟩ := keyed_keyLoad hload
  refine ⟨_, issueAll_eq_foldl _ s, (foldl_decByte_rsps bs hkey hlane).trans ?rsps,
    (foldl_decByte_acc bs (after load s)).trans ?acc⟩ <;> rw [after_keyLoad hload]
  case rsps => simp
  case acc => rfl

/-- Settles O44: both passes are `decode` with one key, which is its own inverse. -/
theorem decodingTwiceGivesBytesBack : Obligations.DecodingTwiceGivesBytesBack := by
  intro load load' key xs s hload hload'
  obtain ⟨t, ht, hrspst, hacc⟩ := issueAll_keyLoad_decBytes hload xs
  have hagain : LoadsKey load' key t := by rwa [LoadsKey, hacc]
  obtain ⟨u, hu, hrspsu, -⟩ := issueAll_keyLoad_decBytes hagain (decodedFrom key 0 xs)
  rw [decodedFrom_decodedFrom] at hrspsu
  exact ⟨_, t, u, ht, hrspst, hu, hrspsu⟩

/-! ## Bytes four apart -/

/-- The lane counts mod 4 (R31, R103). -/
theorem lane_add_four (lane : BitVec 2) : lane + 1#2 + 1#2 + 1#2 + 1#2 = lane := by
  revert lane
  decide

/-- Settles O45: after four bytes the lane is back, and the key has not changed. -/
theorem keyRepeatsEveryFourBytes : Obligations.KeyRepeatsEveryFourBytes := by
  intro b x y z s
  refine ⟨_, _, _, issue_eq_after _ s, issueAll_eq_foldl _ _, issue_eq_after _ _, ?dout, ?lane⟩
  case lane => exact lane_add_four s.regs.lane
  case dout => simp [lane_add_four]

end Sys2Proof.Proofs

/-! PROOF. The control commands: NOP changes nothing, RST resets every register, and RD answers the register its
selector names (44_control.md R110 to R112). -/

namespace Sys2Proof.Proofs

open Sys2Proof.Machine Sys2Proof.Safety

/-! ## NOP and RST -/

/-- Settles O15: the opcode's row fixes its illegal words, and the command only responds. -/
theorem nopChangesNothing : Obligations.NopChangesNothing :=
  ⟨by decide, otherWordsIllegal_opcode .nop, exec_eq_after _⟩

/-- Settles O16: the opcode's row fixes its illegal words, and the command writes the reset values. -/
theorem rstResetsEveryRegister : Obligations.RstResetsEveryRegister :=
  ⟨by decide, otherWordsIllegal_opcode .rst, exec_eq_after _⟩

/-! ## RD -/

/-- The two live bits as a number (R33, R112). -/
theorem statusRead_toNat (status : Word) : (statusRead status).toNat = status.toNat % 4 := by
  have hpair : ∀ a b : Bool, ((BitVec.ofBool a ++ BitVec.ofBool b).setWidth 32).toNat = 2 * a.toNat + b.toNat := by
    decide
  simp only [statusRead, hpair, statusBit, StatusBit.pos, BitVec.getLsbD, Nat.toNat_testBit]
  omega

/-- A read of STATUS is STATUS without its reserved bits (R33, R112). -/
theorem statusRead_eq_and (status : Word) : statusRead status = status &&& 3#32 := by
  have hmask : (status &&& 3#32).toNat = status.toNat % 4 := Nat.and_two_pow_sub_one_eq_mod status.toNat 2
  exact BitVec.eq_of_toNat_eq ((statusRead_toNat status).trans hmask.symm)

/-- A selector that names a register answers its value and changes no register (R112). -/
theorem exec_rd_some {sel : Byte} {r : RdReg} (h : regOfSel sel = some r) (s : State) :
    exec (.rd sel) s = .next { s with rsps := s.rsps ++ [⟨readReg r s.regs, false⟩] } := by
  rw [exec_eq_after, after_rd_some h]
  rfl

/-- A selector that names no register raises the error of an illegal word (R57, log entry 5). -/
theorem exec_rd_illegal {sel : Byte} (h : maxSel < sel) (s : State) :
    exec (.rd sel) s = .next (afterIllegal s) := by
  rw [exec_eq_after, after_rd_none ((regOfSel_none_iff sel).2 h)]
  rfl

/-- Settles O17: the opcode's row and the legal selectors fix the illegal words, and each selector answers the
register it names. -/
theorem rdReturnsSelectedRegister : Obligations.RdReturnsSelectedRegister := by
  refine ⟨fun sel => ?word, otherWordsIllegal_opcode (.rd 0),
    fun sel s hsel => issueWord_illegal (decode_encode_rd_ne_ok hsel) s, fun s => ⟨exec_rd_some (r := .state) rfl s,
      exec_rd_some (r := .pout) rfl s, exec_rd_some (r := .dcnt) rfl s, exec_rd_some (r := .acc) rfl s,
      exec_rd_some (r := .aidx) rfl s, exec_rd_some (r := .key) rfl s, exec_rd_some (r := .lane) rfl s,
      exec_rd_some (r := .dout) rfl s, ?vok, ?status, fun sel hsel => exec_rd_illegal hsel s⟩⟩
  case word => simp [encode, cmdWord_toNat]
  case vok =>
    rw [← zext_ofBool]
    exact exec_rd_some (r := .vok) rfl s
  case status =>
    rw [← statusRead_eq_and]
    exact exec_rd_some (r := .status) rfl s

end Sys2Proof.Proofs

/-! PROOF. Errors: what an illegal word does, the one error a word reports, the two STATUS bits over a run, and the VOK
that stays clear (60_exceptions.md R123 to R136). -/

namespace Sys2Proof.Proofs

open Sys2Proof.Machine Sys2Proof.Safety

/-! ## The STATUS bits of one input -/

/-- Setting one live bit of STATUS leaves the other as it was (10_state.md R33). -/
theorem statusBit_setStatusBit (b c : StatusBit) (status : Word) :
    statusBit c (setStatusBit b status) = (statusBit c status || decide (c = b)) := by
  have hbit : (1#32 <<< b.pos).getLsbD c.pos = decide (c = b) := by cases b <;> cases c <;> decide
  rw [statusBit, setStatusBit, BitVec.getLsbD_or, hbit, statusBit]

theorem zeroModulus_eq_true {i : Instr} : zeroModulus i = true ↔ ∃ r, i = .valCheck 0#16 r := by
  cases i <;> simp [zeroModulus]

/-- A reset clears both bits (70_reset_and_hazards.md R141). -/
@[simp] theorem statusBit_reset (b : StatusBit) : statusBit b Regs.reset.status = false := by
  cases b <;> decide

/-- A legal command but RST sets ERR_MOD0 if it is a VAL.CHECK with modulus 0, and keeps STATUS if not (R124). -/
theorem after_status {i : Instr} (hwf : i.wf = true) (hrst : i ≠ .rst) (s : State) :
    (after i s).regs.status =
      if zeroModulus i then setStatusBit .errMod0 s.regs.status else s.regs.status := by
  split
  case isTrue hzero =>
    obtain ⟨r, rfl⟩ := zeroModulus_eq_true.1 hzero
    rfl
  case isFalse hzero =>
    exact after_status_frame hrst hwf (fun r hr => hzero (zeroModulus_eq_true.2 ⟨r, hr⟩)) s

/-- A legal command sets no bit but ERR_MOD0, and only RST clears one (R129). -/
theorem after_statusBit {i : Instr} (hwf : i.wf = true) (b : StatusBit) (s : State) :
    statusBit b (after i s).regs.status =
      (decide (i ≠ .rst) && (statusBit b s.regs.status || zeroModulus i && decide (b = .errMod0))) := by
  by_cases hrst : i = .rst
  · simp [hrst]
  · rw [after_status hwf hrst]
    split
    case isTrue hzero => simp [hrst, hzero, statusBit_setStatusBit]
    case isFalse hzero => simp [hrst, hzero]

/-- What an input makes of a bit, as Safety says it. -/
def statusBitAfter : StatusBit → Bool → HostInput → Bool
  | .errIll => errIllAfter
  | .errMod0 => errMod0After

theorem statusBit_afterInput (b : StatusBit) (h : HostInput) (s : State) :
    statusBit b (afterInput h s).regs.status = statusBitAfter b (statusBit b s.regs.status) h := by
  cases h with
  | resetPin o => cases b <;> exact statusBit_reset _
  | command w =>
    cases hw : decode w with
    | error r =>
      have hset : (afterWord w s).regs.status = setStatusBit .errIll s.regs.status := by
        rw [afterWord_error hw]
        rfl
      rw [afterInput_command, hset, statusBit_setStatusBit]
      cases b <;> simp [statusBitAfter, errIllAfter, errMod0After, hw]
    | ok i =>
      obtain ⟨hwf, -⟩ := decode_ok_iff_encode.1 hw
      rw [afterInput_command, afterWord_ok hw, after_statusBit hwf]
      cases b <;> simp [statusBitAfter, errIllAfter, errMod0After, hw]

/-- A bit follows the inputs one by one, so it follows their fold. -/
theorem statusBit_foldl_afterInput (b : StatusBit) (inputs : List HostInput) (s : State) :
    statusBit b (inputs.foldl (fun t h => afterInput h t) s).regs.status =
      inputs.foldl (statusBitAfter b) (statusBit b s.regs.status) :=
  (List.foldl_hom (fun t : State => statusBit b t.regs.status)
    fun t h => (statusBit_afterInput b h t).symm).symm

/-- Settles O46: the two bits of the run's fold. -/
theorem statusRecordsErrorsSinceReset : Obligations.StatusRecordsErrorsSinceReset :=
  fun inputs s => ⟨_, runInputs_eq inputs s, statusBit_foldl_afterInput .errIll inputs s,
    statusBit_foldl_afterInput .errMod0 inputs s⟩

/-! ## The error of one word -/

/-- A legal command but VAL.CHECK with modulus 0 responds without an error (R126). -/
theorem after_rsps_of_no_error {i : Instr} (hwf : i.wf = true) (hzero : ∀ r, i ≠ .valCheck 0#16 r) (s : State) :
    ∃ d, (after i s).rsps = s.rsps ++ [⟨d, false⟩] := by
  cases i with
  | rd sel =>
    cases hsel : regOfSel sel with
    | none =>
      have hle : sel ≤ maxSel := of_decide_eq_true hwf
      exact absurd ((regOfSel_none_iff sel).1 hsel) (BitVec.not_lt.2 hle)
    | some r => exact ⟨_, by rw [after_rd_some hsel]; rfl⟩
  | valCheck m r =>
    have hm : m ≠ 0#16 := fun h => hzero r (by rw [h])
    exact ⟨_, by rw [after_valCheck_pos hm]; rfl⟩
  | _ => exact ⟨_, rfl⟩

/-- Settles O14: by what the word decodes to, the three clauses exclude each other. -/
theorem atMostOneErrorLegalityFirst : Obligations.AtMostOneErrorLegalityFirst := by
  intro w s
  rw [issueWord_eq]
  cases hw : decode w with
  | error r =>
    rw [afterWord_error hw]
    exact ⟨_, 1#32, true, rfl, rfl, fun _ => ⟨rfl, rfl, rfl⟩, fun _ h => (nomatch h), fun _ h => (nomatch h)⟩
  | ok i =>
    rw [afterWord_ok hw]
    by_cases hzero : ∃ r, i = .valCheck 0#16 r
    · obtain ⟨r, rfl⟩ := hzero
      refine ⟨_, 2#32, true, rfl, rfl, fun h => absurd rfl (h _), fun _ _ => ⟨rfl, rfl, rfl⟩, ?_⟩
      rintro j ⟨⟩ hj
      exact absurd rfl (hj r)
    · have hzero := not_exists.1 hzero
      obtain ⟨hwf, -⟩ := decode_ok_iff_encode.1 hw
      obtain ⟨d, hd⟩ := after_rsps_of_no_error hwf hzero s
      refine ⟨_, d, false, rfl, hd, fun h => absurd rfl (h i), ?_, ?_⟩
      · rintro r ⟨⟩
        exact absurd rfl (hzero r)
      · rintro j ⟨⟩ _
        exact ⟨rfl, fun hrst => after_status_frame hrst hwf hzero s⟩

/-! ## A cleared VOK -/

/-- No command but the two loads sets VOK (10_state.md R29). -/
theorem after_vok_stays_clear {i : Instr} (hload : loadsVal i = false) {s : State} (hs : s.regs.vok = false) :
    (after i s).regs.vok = false := by
  cases i with
  | valLoad _ | valLdacc => exact nomatch hload
  | valCheck m r => rw [after_valCheck_vok, hs, Bool.false_and]
  | rst => rfl
  | _ => simpa using hs

theorem afterInput_vok_stays_clear {h : HostInput} (hopens : opensSet h = false) {s : State}
    (hs : s.regs.vok = false) : (afterInput h s).regs.vok = false := by
  cases h with
  | resetPin o => rfl
  | command w =>
    cases hw : decode w with
    | error r => simpa [afterWord_error hw] using hs
    | ok i =>
      have hload : loadsVal i = false := by simpa [opensSet, hw] using hopens
      simpa [afterWord_ok hw] using after_vok_stays_clear hload hs

/-- Where VOK is clear, a pair with a nonzero modulus is answered with 0 and without an error (42_validator.md R92). -/
theorem after_valCheck_rsps_of_clear {m : Half} (hm : m ≠ 0#16) (r : Half) {s : State} (hs : s.regs.vok = false) :
    (after (.valCheck m r) s).rsps = s.rsps ++ [⟨0#32, false⟩] := by
  rw [after_valCheck_pos hm, vokAfter, hs, Bool.false_and]
  rfl

/-- Settles O37: every input keeps VOK clear, so the run does. -/
theorem clearedVokStaysClear : Obligations.ClearedVokStaysClear := by
  intro inputs s hs hopens
  have hclear : (inputs.foldl (fun t h => afterInput h t) s).regs.vok = false :=
    List.foldlRecOn inputs (motive := fun t : State => t.regs.vok = false) _ hs
      fun t ht h hmem => afterInput_vok_stays_clear (hopens h hmem) ht
  exact ⟨_, runInputs_eq inputs s, hclear,
    fun m r hm => ⟨_, exec_eq_after _ _, after_valCheck_rsps_of_clear hm r hclear⟩⟩

/-! ## One step -/

/-- Settles O9: the step takes the word, and the word raises the error. -/
theorem illegalWordOnlySetsErrIll : Obligations.IllegalWordOnlySetsErrIll := by
  intro s w rest hinbox h
  obtain ⟨r, hr⟩ := decode_not_ok.1 h
  rw [step_cons hinbox, afterInput_command, afterWord_error hr]
  rfl

/-- Settles O10: there is no input to take. -/
theorem idleStepHoldsState : Obligations.IdleStepHoldsState :=
  fun _ => step_nil

end Sys2Proof.Proofs

/-! PROOF. Reset, by the pin and by the command, and a run as the commands issued one after another
(70_reset_and_hazards.md R140 to R142, R146, R152). -/

namespace Sys2Proof.Proofs

open Sys2Proof.Machine Sys2Proof.Safety

/-! ## Reset -/

/-- Settles O12: the values stand in the reset state. -/
theorem resetValuesOfEveryRegister : Obligations.ResetValuesOfEveryRegister :=
  ⟨rfl, rfl, rfl, rfl, rfl, rfl, rfl, rfl, rfl, rfl, rfl⟩

/-- Settles O47: the reset values meet the invariant. -/
theorem invariantHoldsAtReset : Obligations.InvariantHoldsAtReset :=
  inv_of_regs_reset rfl

/-- Settles O11: the step takes the pin's input, and the word is that of RST. -/
theorem pinAndRstResetAlike : Obligations.PinAndRstResetAlike := by
  intro s inFlight rest
  obtain ⟨hword, -, -⟩ := rstResetsEveryRegister
  constructor
  · exact step_cons (h := .resetPin inFlight) (rest := rest) rfl
  · rw [← hword]
    exact issue_eq_after .rst s

/-! ## A run of commands -/

/-- The inputs that present a command list do what the commands do. -/
theorem foldl_afterInput_commands (cs : List Instr) (s : State) :
    (cs.map fun i => HostInput.command (encode i)).foldl (fun t h => afterInput h t) s =
      cs.foldl (fun t i => after i t) s := by
  simp only [List.foldl_map, afterInput_command, afterWord_encode_eq_after]

theorem foldl_after_inbox (cs : List Instr) (s : State) :
    (cs.foldl (fun t i => after i t) s).inbox = s.inbox := by
  induction cs generalizing s with
  | nil => rfl
  | cons i is ih => exact (ih (after i s)).trans (after_inbox i s)

/-- One response per command. -/
theorem foldl_after_rsps_length (cs : List Instr) (s : State) :
    (cs.foldl (fun t i => after i t) s).rsps.length = s.rsps.length + cs.length := by
  induction cs generalizing s with
  | nil => rfl
  | cons i is ih =>
    obtain ⟨a, ha⟩ := after_rsps i s
    rw [List.foldl_cons, ih, ha, List.length_append, List.length_singleton, List.length_cons]
    omega

/-- Settles O49: both are the fold of the commands, and only the run takes the inbox for its own. -/
theorem runIsCommandsInOrder : Obligations.RunIsCommandsInOrder := by
  intro cs s
  refine ⟨_, runInputs_eq _ s, rfl, ?issued, ?count⟩ <;> rw [foldl_afterInput_commands]
  case issued => rw [issueAll_eq_foldl, ← foldl_after_inbox cs s]
  case count => exact foldl_after_rsps_length cs s

end Sys2Proof.Proofs

/-! PROOF. The clocked port: a transaction as a word's effect whatever the history, one edge by the handshake's phase, the
response LAT edges after acceptance, and the port's run against the machine's run of the inputs that ended
(70_reset_and_hazards.md R142, R146, R149). -/

namespace Sys2Proof.Proofs

open Sys2Proof.Machine Sys2Proof.Safety Sys2Proof.Machine.Port

/-! ## Transactions -/

/-- What is still to come and what was answered before are carried along by a command, which looks at neither. -/
theorem after_eq_of_fresh (i : Instr) (s : State) :
    after i s =
      { regs := (after i ⟨s.regs, [], []⟩).regs, inbox := s.inbox,
        rsps := s.rsps ++ (after i ⟨s.regs, [], []⟩).rsps } := by
  cases i with
  | rd sel =>
    cases h : regOfSel sel with
    | none => simp only [after_rd_none h]; rfl
    | some r => simp only [after_rd_some h]; rfl
  | valCheck m r =>
    by_cases hm : m = 0#16
    · subst hm; rfl
    · simp only [after_valCheck_pos hm]; rfl
  | _ => rfl

theorem afterWord_eq_of_fresh (w : Cmd) (s : State) :
    afterWord w s =
      { regs := (afterWord w ⟨s.regs, [], []⟩).regs, inbox := s.inbox,
        rsps := s.rsps ++ (afterWord w ⟨s.regs, [], []⟩).rsps } := by
  cases h : decode w with
  | ok i => simpa only [afterWord_ok h] using after_eq_of_fresh i s
  | error r => simp only [afterWord_error h]; rfl

theorem transact_eq (w : Cmd) (r : Regs) :
    transact w r = (afterWord w ⟨r, [], []⟩).rsps.head?.map fun a => ((afterWord w ⟨r, [], []⟩).regs, a) := by
  rw [transact, step_cons (h := .command w) (rest := []) rfl]
  rfl

/-- Every word is a transaction. -/
theorem exists_transact (w : Cmd) (r : Regs) : ∃ r' a, transact w r = some (r', a) := by
  obtain ⟨a, ha⟩ := afterWord_rsps w ⟨r, [], []⟩
  exact ⟨_, a, by rw [transact_eq, ha]; rfl⟩

/-- A word does on a state what its transaction does on the registers, and appends the transaction's response. -/
theorem afterWord_of_transact {w : Cmd} {s : State} {r : Regs} {a : Response}
    (h : transact w s.regs = some (r, a)) :
    (afterWord w s).regs = r ∧ (afterWord w s).rsps = s.rsps ++ [a] := by
  obtain ⟨b, hb⟩ := afterWord_rsps w ⟨s.regs, [], []⟩
  rw [transact_eq, hb] at h
  obtain ⟨rfl, rfl⟩ := Prod.mk.inj (Option.some.inj h)
  rw [afterWord_eq_of_fresh w s, hb]
  exact ⟨rfl, rfl⟩

/-! ## One edge, by phase (R149) -/

section Edges

variable {lat left : Nat} {r r' : Regs} {w : Cmd} {a : Response} {p : PortState} {x : Pins}

theorem edge_reset (hx : x.rstN = false) : edge lat p x = PortState.reset := by
  simp [edge, hx]

theorem edge_inReset (hx : x.rstN = true) : edge lat ⟨r, .inReset⟩ x = ⟨r, .ready⟩ := by
  simp [edge, hx]

theorem edge_accept (hx : x.rstN = true) (hv : x.cmdValid = true) :
    edge lat ⟨r, .ready⟩ x = ⟨r, .busy x.cmdData lat⟩ := by
  simp [edge, hx, hv]

theorem edge_idle (hx : x.rstN = true) (hv : x.cmdValid = false) : edge lat ⟨r, .ready⟩ x = ⟨r, .ready⟩ := by
  simp [edge, hx, hv]

theorem edge_wait (hx : x.rstN = true) (hleft : 1 < left) :
    edge lat ⟨r, .busy w left⟩ x = ⟨r, .busy w (left - 1)⟩ := by
  simp [edge, hx, Nat.not_le.2 hleft]

/-- The edge that presents the response makes the effects of the command visible. -/
theorem edge_present (hx : x.rstN = true) (hleft : left ≤ 1) (hw : transact w r = some (r', a)) :
    edge lat ⟨r, .busy w left⟩ x = ⟨r', .responding w a⟩ := by
  simp [edge, hx, hleft, hw]

theorem edge_hold (hx : x.rstN = true) (hr : x.rspReady = false) :
    edge lat ⟨r, .responding w a⟩ x = ⟨r, .responding w a⟩ := by
  simp [edge, hx, hr]

theorem edge_take (hx : x.rstN = true) (hr : x.rspReady = true) :
    edge lat ⟨r, .responding w a⟩ x = ⟨r, .ready⟩ := by
  simp [edge, hx, hr]

end Edges

/-- A port that presents a response is in the phase that answers. -/
theorem rsp_eq_some {p : PortState} {a : Response} (h : p.rsp = some a) :
    ∃ w, p = ⟨p.regs, .responding w a⟩ := by
  obtain ⟨r, phase⟩ := p
  cases phase with
  | responding w b =>
    obtain rfl := Option.some.inj h
    exact ⟨w, rfl⟩
  | inReset | ready | busy _ _ => exact nomatch h

/-- Settles O53: the port is in the phase that answers, and the three clauses are its three edges. -/
theorem portHoldsResponseUntilTaken : Obligations.PortHoldsResponseUntilTaken := by
  intro lat p a x hrsp
  obtain ⟨w, hp⟩ := rsp_eq_some hrsp
  rw [hp]
  refine ⟨rfl, fun hx hr => edge_hold hx hr, fun hx hr => ?taken, fun hx => ?reset⟩
  case taken => rw [edge_take hx hr]; exact ⟨rfl, rfl, rfl⟩
  case reset => rw [edge_reset hx]; exact ⟨rfl, rfl, rfl⟩

/-! ## From acceptance to the response -/

/-- While edges are left, each counts one off and shows nothing. -/
theorem runEdges_wait {lat left : Nat} {r : Regs} {w : Cmd} {xs : List Pins} (hxs : ∀ y ∈ xs, y.rstN = true)
    (hlen : xs.length < left) :
    runEdges lat xs ⟨r, .busy w left⟩ = ⟨r, .busy w (left - xs.length)⟩ := by
  induction xs generalizing left with
  | nil => rfl
  | cons y ys ih =>
    obtain ⟨hy, hys⟩ := List.forall_mem_cons.1 hxs
    rw [List.length_cons] at hlen ⊢
    rw [runEdges, edge_wait hy (by omega), ih hys (by omega), Nat.sub_sub, Nat.add_comm]

theorem runEdges_append (lat : Nat) (xs ys : List Pins) (p : PortState) :
    runEdges lat (xs ++ ys) p = runEdges lat ys (runEdges lat xs p) := by
  induction xs generalizing p with
  | nil => rfl
  | cons x xs ih => exact ih (edge lat p x)

/-- The last of the edges left presents the transaction's response. -/
theorem runEdges_present {lat : Nat} {r r' : Regs} {w : Cmd} {a : Response} {xs : List Pins}
    (hxs : ∀ y ∈ xs, y.rstN = true) (hne : xs ≠ []) (hw : transact w r = some (r', a)) :
    runEdges lat xs ⟨r, .busy w xs.length⟩ = ⟨r', .responding w a⟩ := by
  obtain ⟨ys, y, rfl⟩ := (List.eq_nil_or_concat' xs).resolve_left hne
  obtain ⟨hys, hy⟩ := List.forall_mem_append.1 hxs
  rw [runEdges_append, runEdges_wait hys (by simp), runEdges, runEdges]
  exact edge_present (hy y List.mem_cons_self) (by simp) hw

/-- Settles O52: the accepting edge leaves LAT edges to count, all but the last show nothing, and the last presents the
response. -/
theorem responseAfterLatEdges : Obligations.ResponseAfterLatEdges := by
  rintro _ r x xs hlat hx hv hxs rfl
  simp only [runEdges, edge_accept hx hv]
  constructor
  case left =>
    rintro n hn _ rfl
    rw [runEdges_wait (fun y hy => hxs y (List.mem_of_mem_take hy)) (by rw [List.length_take]; omega)]
    exact ⟨rfl, rfl, rfl⟩
  case right =>
    obtain ⟨r', a, hw⟩ := exists_transact x.cmdData r
    have hne : xs ≠ [] := List.length_pos_iff.1 hlat
    rw [runEdges_present hxs hne hw]
    exact ⟨r', a, hw, rfl, rfl⟩

/-! ## The port against the machine -/

/-- A machine stands where a port does: while a response is presented one transaction behind it, else at the same
registers (R142, R149). -/
def StandsAt (t : State) (p : PortState) : Prop :=
  match p.phase with
  | .responding w a => transact w t.regs = some (p.regs, a)
  | .inReset | .ready | .busy _ _ => t.regs = p.regs

/-- What the inputs that end at an edge do to a machine. -/
def afterEnded (p : PortState) (x : Pins) (t : State) : State :=
  (ended p x).toList.foldl (fun u h => afterInput h u) t

/-- A reset edge takes no response, and leaves both at the reset values (R142). -/
theorem standsAt_edge_reset {p : PortState} {x : Pins} (hx : x.rstN = false) (lat : Nat) (t : State) :
    StandsAt (afterEnded p x t) (edge lat p x) ∧ (afterEnded p x t).rsps = t.rsps ++ (taken p x).toList := by
  rw [edge_reset hx]
  simp [StandsAt, afterEnded, ended, taken, hx, PortState.reset]

/-- With reset released and no response presented, no input ends and no response is taken. -/
theorem afterEnded_of_rsp_none {p : PortState} {x : Pins} (hx : x.rstN = true) (hp : p.rsp = none) (t : State) :
    afterEnded p x t = t ∧ taken p x = none := by
  obtain ⟨r, phase⟩ := p
  cases phase with
  | responding w a => exact nomatch hp
  | inReset | ready | busy _ _ => simp [afterEnded, ended, taken, hx]

/-- With reset released, an edge of a port that presents nothing leaves a machine where the port stands. -/
theorem standsAt_edge_of_rsp_none {p : PortState} {x : Pins} {t : State} (hx : x.rstN = true) (hp : p.rsp = none)
    (hs : StandsAt t p) (lat : Nat) : StandsAt t (edge lat p x) := by
  obtain ⟨r, phase⟩ := p
  cases phase with
  | inReset => rwa [edge_inReset hx]
  | ready =>
    cases hv : x.cmdValid with
    | false => rwa [edge_idle hx hv]
    | true => rwa [edge_accept hx hv]
  | busy w left =>
    by_cases hleft : left ≤ 1
    · obtain rfl : t.regs = r := hs
      obtain ⟨r', a, hw⟩ := exists_transact w t.regs
      rw [edge_present hx hleft hw]
      exact hw
    · rwa [edge_wait hx (Nat.not_le.1 hleft)]
  | responding w a => exact nomatch hp

/-- With reset released, the response presented is held, or taken as the machine's answer to the same word. -/
theorem standsAt_edge_responding {r : Regs} {w : Cmd} {a : Response} {x : Pins} {t : State} (hx : x.rstN = true)
    (hs : transact w t.regs = some (r, a)) (lat : Nat) :
    StandsAt (afterEnded ⟨r, .responding w a⟩ x t) (edge lat ⟨r, .responding w a⟩ x) ∧
      (afterEnded ⟨r, .responding w a⟩ x t).rsps = t.rsps ++ (taken ⟨r, .responding w a⟩ x).toList := by
  cases hr : x.rspReady with
  | false =>
    rw [edge_hold hx hr]
    simpa [StandsAt, afterEnded, ended, taken, hx, hr] using hs
  | true =>
    rw [edge_take hx hr]
    simpa [StandsAt, afterEnded, ended, taken, hx, hr] using afterWord_of_transact hs

/-- Every edge keeps a machine where the port stands, and the host takes what the machine answers. -/
theorem standsAt_edge {p : PortState} {t : State} (hs : StandsAt t p) (lat : Nat) (x : Pins) :
    StandsAt (afterEnded p x t) (edge lat p x) ∧ (afterEnded p x t).rsps = t.rsps ++ (taken p x).toList := by
  cases hx : x.rstN with
  | false => exact standsAt_edge_reset hx lat t
  | true =>
    cases hp : p.rsp with
    | none =>
      obtain ⟨hended, htaken⟩ := afterEnded_of_rsp_none hx hp t
      rw [hended, htaken]
      exact ⟨standsAt_edge_of_rsp_none hx hp hs lat, (List.append_nil _).symm⟩
    | some a =>
      obtain ⟨w, hphase⟩ := rsp_eq_some hp
      rw [hphase] at hs ⊢
      exact standsAt_edge_responding hx hs lat

/-- The step lemma, along a sequence of edges. -/
theorem standsAt_runEdges {p : PortState} {t : State} (hs : StandsAt t p) (lat : Nat) (xs : List Pins) :
    StandsAt ((endedAll lat xs p).foldl (fun u h => afterInput h u) t) (runEdges lat xs p) ∧
      ((endedAll lat xs p).foldl (fun u h => afterInput h u) t).rsps = t.rsps ++ takenAll lat xs p := by
  induction xs generalizing p t with
  | nil => exact ⟨hs, (List.append_nil _).symm⟩
  | cons x xs ih =>
    obtain ⟨hstands, hrsps⟩ := standsAt_edge hs lat x
    obtain ⟨hstands', hrsps'⟩ := ih hstands
    rw [endedAll, List.foldl_append, takenAll, ← List.append_assoc, ← hrsps]
    exact ⟨hstands', hrsps'⟩

/-- Settles O54: the machine stands at a ready port with its registers, and every edge keeps it there. -/
theorem portRefinesTransactions : Obligations.PortRefinesTransactions := by
  intro lat r xs
  have hstart : StandsAt ⟨r, [], []⟩ ⟨r, .ready⟩ := rfl
  obtain ⟨hstands, hrsps⟩ := standsAt_runEdges hstart lat xs
  exact ⟨_, runInputs_eq _ _, hrsps, hstands⟩

end Sys2Proof.Proofs

/-! PROOF. The two host flows: the seed search as the filter of the seeds whose draws fit the fingerprint, and the unlock
flow's verdict by its two checks (70_reset_and_hazards.md R144, R145). -/

namespace Sys2Proof.Proofs

open Sys2Proof.Machine Sys2Proof.Safety

/-! ## What the host reads -/

@[simp] theorem andThen_next {α β : Type} (a : α) (f : α → Host.Outcome β Fault Refusal) :
    andThen (.next a) f = f a := rfl

theorem lastData_of_rsps {s : State} {l : List Response} {a : Response} (h : s.rsps = l ++ [a]) :
    lastData s = a.data := by
  simp [lastData, h]

@[simp] theorem lastData_respond (s : State) (d : Word) (e : Bool) : lastData (s.respond d e) = d :=
  lastData_of_rsps (s.respond_rsps d e)

theorem lowByte_ofNat_eq_iff {n : Nat} {b : Byte} : lowByte (BitVec.ofNat 32 n) = b ↔ n % 256 = b.toNat := by
  rw [← BitVec.toNat_inj, lowByte, BitVec.toNat_setWidth, BitVec.toNat_ofNat]
  omega

/-- The host gets the byte of a zero-extended answer back. -/
@[simp] theorem lowByte_zext (b : Byte) : lowByte (zext b) = b := by
  rw [zext, ← BitVec.ofNat_toNat]
  exact lowByte_ofNat_eq_iff.2 (Nat.mod_eq_of_lt b.isLt)

/-! ## The seed search (R145) -/

/-- The draw of a seed at a position has the expected low byte (40_prng.md R75). -/
def drawFits (seed : Word) (p : Nat × Byte) : Bool :=
  decide (seqOut (seqState seed.toNat p.1) % 256 = p.2.toNat)

/-- The host's test of one draw asks the positions of its number. -/
theorem agreesAt_iff {fp : Fingerprint} {k : Nat} {seed : Word} {s : State} (hs : DrawnFrom seed k s) :
    agreesAt fp (k + 1) (lastData (after .prngNext s)) = true ↔ ∀ p ∈ fp, p.1 = k + 1 → drawFits seed p = true := by
  simp only [agreesAt, lastData_of_rsps (drawnFrom_response hs), lowByte_ofNat_eq_iff, drawFits, List.all_eq_true,
    Bool.or_eq_true, decide_eq_true_iff, ← imp_iff_not_or]
  exact forall₂_congr fun p _ => ⟨fun h hk => hk ▸ h hk, fun h hk => hk ▸ h hk⟩

/-- The draws from number `k + 1` on agree iff those of the fingerprint's positions among them fit; the draws that the
first mismatch cuts off do not matter. -/
theorem drawsAgree_eq {fp : Fingerprint} {seed : Word} {k : Nat} {s : State} (n : Nat) (hs : DrawnFrom seed k s) :
    ∃ b t, drawsAgree fp (k + 1) n s = .next (b, t) ∧
      (b = true ↔ ∀ p ∈ fp, k + 1 ≤ p.1 → p.1 ≤ k + n → drawFits seed p = true) := by
  induction n generalizing k s with
  | zero => exact ⟨true, s, rfl, iff_of_true rfl fun p _ hlo hhi => by omega⟩
  | succ n ih =>
    have hfirst := agreesAt_iff (fp := fp) hs
    rw [drawsAgree, issue_eq_after, andThen_next]
    split
    case isTrue hagree =>
      obtain ⟨b, t, hrun, hb⟩ := ih (drawnFrom_prngNext hs)
      refine ⟨b, t, hrun, hb.trans ⟨fun h p hp hlo hhi => ?_, fun h p hp hlo hhi => ?_⟩⟩
      · obtain heq | hlt := hlo.eq_or_lt
        · exact hfirst.1 hagree p hp heq.symm
        · exact h p hp hlt (by omega)
      · exact h p hp (by omega) (by omega)
    case isFalse hagree =>
      refine ⟨false, _, rfl, iff_of_false Bool.false_ne_true fun h => hagree (hfirst.2 fun p hp hk => ?_)⟩
      exact h p hp (by omega) (by omega)

theorem le_lastPosition {fp : Fingerprint} {p : Nat × Byte} (hp : p ∈ fp) : p.1 ≤ lastPosition fp := by
  induction fp with
  | nil => exact absurd hp List.not_mem_nil
  | cons q fp ih =>
    obtain rfl | hp := List.mem_cons.1 hp
    · exact Nat.le_max_left _ _
    · exact (ih hp).trans (Nat.le_max_right _ _)

/-- A trial draws as far as the last position, so it asks all of them. -/
theorem seedTrial_eq {fp : Fingerprint} (hfp : ∀ p ∈ fp, 1 ≤ p.1) (seed : Word) (s : State) :
    ∃ t, seedTrial fp seed s = .next (fp.all (drawFits seed), t) := by
  obtain ⟨b, t, hrun, hb⟩ := drawsAgree_eq (fp := fp) (lastPosition fp) (drawnFrom_prngSeed seed s)
  have hall : b = fp.all (drawFits seed) := by
    rw [Bool.eq_iff_iff, hb, List.all_eq_true]
    refine forall₂_congr fun p hp => ⟨fun h => h (hfp p hp) ?_, fun h _ _ => h⟩
    exact (Nat.zero_add _).symm ▸ le_lastPosition hp
  exact ⟨t, by rw [seedTrial, issue_eq_after, andThen_next, hrun, hall]⟩

/-- Settles O56: each trial keeps its seed iff all of the fingerprint fits. -/
theorem seedSearchEnumeratesMatches : Obligations.SeedSearchEnumeratesMatches := by
  intro fp seeds s hfp
  change ∃ t, seedSearch fp seeds s = .next (seeds.filter fun x => fp.all (drawFits x), t)
  induction seeds generalizing s with
  | nil => exact ⟨s, rfl⟩
  | cons x xs ih =>
    obtain ⟨t, ht⟩ := seedTrial_eq hfp x s
    obtain ⟨u, hu⟩ := ih t
    exact ⟨u, by rw [seedSearch, ht, andThen_next, hu, andThen_next, List.filter_cons]⟩

/-! ## The unlock flow's first part: checksum, constraint set and verdict (R144) -/

/-- The checksum on words is the source's on numbers (41_checksum.md R83). -/
theorem add_ofNat_weighted (base : Word) (bs : List Byte) :
    base + BitVec.ofNat 32 (weighted 0 bs) = BitVec.ofNat 32 (compute bs base) := by
  apply BitVec.eq_of_toNat_eq
  rw [compute, BitVec.toNat_add, BitVec.toNat_ofNat, BitVec.toNat_ofNat, Nat.add_mod_mod, Nat.mod_mod]

/-- What every command of a list leaves as it was, the list does. -/
theorem issueAll_frame {α : Type} (f : Regs → α) {cs : List Instr} {s t : State}
    (h : ∀ i ∈ cs, ∀ u, f (after i u).regs = f u.regs) (hissue : issueAll cs s = .next t) :
    f t.regs = f s.regs := by
  rw [issueAll_eq_foldl] at hissue
  obtain rfl := Host.Outcome.next.inj hissue
  exact List.foldlRecOn cs (motive := fun u : State => f u.regs = f s.regs) _ rfl
    fun u hu i hi => (h i hi u).trans hu

theorem issueAll_append (as bs : List Instr) (s : State) :
    issueAll (as ++ bs) s = andThen (issueAll as s) (issueAll bs) := by
  rw [issueAll_eq_foldl, issueAll_eq_foldl, andThen_next, issueAll_eq_foldl, List.foldl_append]

/-- ACC.STR leaves the checksum of its bytes (30_encoding.md R63). -/
theorem issueAll_accStr (base : Word) (bs : List Byte) (s : State) :
    ∃ t, issueAll (Pseudo.expand (.accStr base bs)) s = .next t ∧
      t.regs.acc = BitVec.ofNat 32 (compute bs base) := by
  obtain ⟨t, ht, hacc⟩ := issueAll_accStr_acc base bs s
  exact ⟨t, ht, hacc.trans (add_ofNat_weighted base bs)⟩

/-- The constraint set tests ACC, and keeps it. -/
theorem issueAll_valLdacc_valSet (ps : List (Half × Half)) (s : State) :
    ∃ t, issueAll (.valLdacc :: Pseudo.expand (.valSet ps)) s = .next t ∧
      t.regs.vok = accepts s.regs.acc ps ∧ t.regs.acc = s.regs.acc := by
  have hrestart : ∀ i ∈ Pseudo.expand (.valSet ps), restartsVal i = false := List.forall_mem_map.2 fun _ _ => rfl
  have hpairs : (Pseudo.expand (.valSet ps)).filterMap checkOperand = ps := by
    rw [Pseudo.expand, List.filterMap_map]
    exact List.filterMap_some
  have hacc : ∀ i ∈ .valLdacc :: Pseudo.expand (.valSet ps), restartsAcc i = false ∧ accOperand i = none :=
    List.forall_mem_cons.2 ⟨⟨rfl, rfl⟩, List.forall_mem_map.2 fun _ _ => ⟨rfl, rfl⟩⟩
  obtain ⟨-, t, -, -, ht, hvok⟩ := vokIsConstraintSetVerdict.1 0#32 _ s hrestart
  rw [hpairs] at hvok
  exact ⟨t, ht, hvok, issueAll_frame Regs.acc (fun i hi u => (after_acc_frame (hacc i hi).1 (hacc i hi).2 u).1) ht⟩

theorem lastData_rd_vok (s : State) : lastData (after (.rd 0x08#8) s) = 0#32 ↔ s.regs.vok = false := by
  rw [after_rd_some (r := .vok) rfl, lastData_respond, readReg, zext_ofBool]
  cases s.regs.vok <;> decide

theorem lastData_rd_acc (s : State) : lastData (after (.rd 0x03#8) s) = s.regs.acc := by
  rw [after_rd_some (r := .acc) rfl, lastData_respond, readReg]

/-- The checksum the unlock flow tests and decodes with (R144). -/
def secretSum (secret : List Byte) : Word := BitVec.ofNat 32 (compute secret secretBase)

/-- The first part leaves the secret's checksum in ACC and its verdict as the last answer. -/
theorem issueAll_unlockFront (secret : List Byte) (pairs : List (Half × Half)) (s : State) :
    ∃ t, issueAll (unlockFront secret pairs) s = .next t ∧ t.regs.acc = secretSum secret ∧
      (lastData t = 0#32 ↔ accepts (secretSum secret) pairs = false) := by
  have hsplit : unlockFront secret pairs = Pseudo.expand (.accStr secretBase secret) ++
      ((.valLdacc :: Pseudo.expand (.valSet pairs)) ++ [.rd 0x08#8]) := by simp [unlockFront]
  obtain ⟨t, ht, hacct⟩ := issueAll_accStr secretBase secret s
  obtain ⟨u, hu, hvok, hacc⟩ := issueAll_valLdacc_valSet pairs t
  rw [hacct] at hvok hacc
  refine ⟨after (.rd 0x08#8) u, ?issued, ?acc, ?verdict⟩
  case issued =>
    rw [hsplit, issueAll_append, ht, andThen_next, issueAll_append, hu, andThen_next]
    exact issueAll_eq_foldl _ u
  case acc => rwa [after_rd_regs]
  case verdict => rw [lastData_rd_vok, hvok, secretSum]

/-- No command of the first part is of the decoder. -/
theorem unlockFront_not_decoder (secret : List Byte) (pairs : List (Half × Half)) :
    ∀ i ∈ unlockFront secret pairs, restartsDec i = false ∧ decOperand i = none := by
  rw [unlockFront, List.forall_mem_append, List.forall_mem_cons, List.forall_mem_append, List.forall_mem_singleton]
  refine ⟨?accStr, ⟨rfl, rfl⟩, ?valSet, rfl, rfl⟩
  case accStr => exact List.forall_mem_cons.2 ⟨⟨rfl, rfl⟩, List.forall_mem_map.2 fun _ _ => ⟨rfl, rfl⟩⟩
  case valSet => exact List.forall_mem_map.2 fun _ _ => ⟨rfl, rfl⟩

theorem unlockFront_decoder_frame {secret : List Byte} {pairs : List (Half × Half)} {s t : State}
    (h : issueAll (unlockFront secret pairs) s = .next t) :
    t.regs.key = s.regs.key ∧ t.regs.lane = s.regs.lane ∧ t.regs.dout = s.regs.dout := by
  have hdec := unlockFront_not_decoder secret pairs
  refine ⟨issueAll_frame Regs.key (fun i hi u => ?key) h, issueAll_frame Regs.lane (fun i hi u => ?lane) h,
    issueAll_frame Regs.dout (fun i hi u => ?dout) h⟩ <;> obtain ⟨hrestart, hbyte⟩ := hdec i hi
  case key => exact (after_key_frame hrestart u).1
  case lane => exact (after_key_frame hrestart u).2 hbyte
  case dout => exact after_dout_frame (restartsDec_eq_false.1 hrestart).1 hbyte u

/-! ## The unlock flow's second part: decode and check (R144) -/

/-- The decode loop answers `decode` of the bytes and feeds them to the checksum. -/
theorem decodeAndSum_eq {key base : Word} {n : Nat} {bs : List Byte} {s : State} (es : List Byte)
    (hkey : Keyed key n s) (hsum : Summed base bs s) :
    ∃ t, decodeAndSum es s = .next (decodedFrom key n es, t) ∧ Summed base (bs ++ decodedFrom key n es) t := by
  induction es generalizing n bs s with
  | nil => exact ⟨s, rfl, by rwa [decodedFrom, List.append_nil]⟩
  | cons e es ih =>
    have hbyte : lowByte (lastData (after (.decByte e) s)) = decodedAt key n e := by
      rw [lastData_of_rsps (keyed_response hkey e)]
      exact lowByte_zext _
    have hsum' := summed_accByte (decodedAt key n e) (summed_other (i := .decByte e) rfl rfl hsum)
    have hkey' := keyed_other (i := .accByte (decodedAt key n e)) rfl rfl (keyed_decByte e hkey)
    obtain ⟨t, ht, hsumt⟩ := ih hkey' hsum'
    refine ⟨t, ?_, by rwa [decodedFrom, List.append_cons]⟩
    simp only [decodeAndSum, issue_eq_after, andThen_next, hbyte, ht, decodedFrom]

/-- A checksum on words is the expected one as it is on numbers. -/
theorem ofNat_compute_eq_iff {bs : List Byte} {base expected : Word} :
    BitVec.ofNat 32 (compute bs base) = expected ↔ compute bs base = expected.toNat := by
  rw [← BitVec.toNat_inj, BitVec.toNat_ofNat, compute, Nat.mod_mod]

section Unlock

variable {secret : List Byte} {pairs : List (Half × Half)}

/-- A rejected checksum ends the flow after its first part. -/
theorem unlock_of_rejected (hrejects : accepts (secretSum secret) pairs = false) (encoded : List Byte)
    (expected : Word) (s : State) :
    ∃ t, unlock secret pairs encoded expected s = .next (.invalidKey, t) ∧
      t.regs.key = s.regs.key ∧ t.regs.lane = s.regs.lane ∧ t.regs.dout = s.regs.dout := by
  obtain ⟨t, ht, -, hverdict⟩ := issueAll_unlockFront secret pairs s
  exact ⟨t, by rw [unlock, ht, andThen_next, if_pos (hverdict.2 hrejects)], unlockFront_decoder_frame ht⟩

/-- An accepted checksum decodes the payload, whose own checksum decides on its release. -/
theorem unlock_of_accepted (haccepts : accepts (secretSum secret) pairs = true) (encoded : List Byte)
    (expected : Word) (s : State) :
    ∃ t, unlock secret pairs encoded expected s =
      .next (if compute (decodedFrom (secretSum secret) 0 encoded) 0#32 = expected.toNat
        then .released (decodedFrom (secretSum secret) 0 encoded) else .corruptedPayload, t) := by
  obtain ⟨t, ht, hacc, hverdict⟩ := issueAll_unlockFront secret pairs s
  have hnonzero : lastData t ≠ 0#32 := by
    rw [ne_eq, hverdict, haccepts]
    decide
  have hkey : Keyed (secretSum secret) 0 (after (.accInit 0#32) (after .decKeyacc t)) :=
    keyed_other rfl rfl (keyed_keyLoad (.inr ⟨rfl, hacc⟩))
  obtain ⟨u, hu, hsum⟩ := decodeAndSum_eq encoded hkey (summed_accInit 0#32 _)
  have hpayload : lastData (after (.rd 0x03#8) u) =
      BitVec.ofNat 32 (compute (decodedFrom (secretSum secret) 0 encoded) 0#32) :=
    (lastData_rd_acc u).trans (hsum.1.trans (add_ofNat_weighted _ _))
  refine ⟨after (.rd 0x03#8) u, ?_⟩
  simp only [unlock, ht, andThen_next, if_neg hnonzero, issueAll, issue_eq_after, hu, hpayload, ofNat_compute_eq_iff]
  split <;> rfl

end Unlock

/-- Settles O55: the verdict of the constraint set splits the flow. -/
theorem unlockFlowVerdict : Obligations.UnlockFlowVerdict := by
  intro secret pairs encoded expected s
  change ∃ v t, _ ∧ (accepts (secretSum secret) pairs = false → _) ∧ (accepts (secretSum secret) pairs = true → _)
  cases hset : accepts (secretSum secret) pairs with
  | false =>
    obtain ⟨t, ht, hframe⟩ := unlock_of_rejected hset encoded expected s
    exact ⟨_, t, ht, fun _ => ⟨rfl, hframe⟩, nofun⟩
  | true =>
    obtain ⟨t, ht⟩ := unlock_of_accepted hset encoded expected s
    exact ⟨_, t, ht, nofun, fun _ => rfl⟩

end Sys2Proof.Proofs
